-- ==== Sys2Proof/Word.lean ====
section
/-! DEFINITION. The word types of CORE. Every value of CORE is unsigned (00_scope section 6). -/

namespace Sys2Proof

/-- A `u8`: a register, a memory byte, an immediate. -/
abbrev Byte := BitVec 8

/-- A `u16`: the program counter, the index register, a stack entry, a timer, an instruction word. -/
abbrev Half := BitVec 16

/-- A `u32`: a pixel, an output of the generator, a rate. -/
abbrev Word := BitVec 32

/-- A `u64`: the generator's state and increment, the cycle counter. -/
abbrev Long := BitVec 64

/-- A register index, always below 16 by construction of `decode` (R20). -/
abbrev Reg := Fin 16

/-- A 12-bit address field (R87). -/
abbrev Addr := BitVec 12

/-- A 4-bit field of an instruction word. -/
abbrev Nibble := BitVec 4

end Sys2Proof
end

