-- ==== Sys2Proof/Syntax.lean ====
section
/-! DEFINITION. The 34 instructions of CORE (R3, R93), with their operands (R87). -/

namespace Sys2Proof

/-- One constructor per row of the opcode table, in the order of R93. Shr and Shl keep `ry` although their meaning does
not read it (R98). -/
inductive Instr where
  | cls
  | ret
  | jump (addr : Addr)
  | call (addr : Addr)
  | skipEqI (rx : Reg) (imm : Byte)
  | skipNeqI (rx : Reg) (imm : Byte)
  | skipEq (rx ry : Reg)
  | loadI (rx : Reg) (imm : Byte)
  | addI (rx : Reg) (imm : Byte)
  | move (rx ry : Reg)
  | or (rx ry : Reg)
  | and (rx ry : Reg)
  | xor (rx ry : Reg)
  | add (rx ry : Reg)
  | sub (rx ry : Reg)
  | shr (rx ry : Reg)
  | subN (rx ry : Reg)
  | shl (rx ry : Reg)
  | skipNeq (rx ry : Reg)
  | loadA (addr : Addr)
  | jumpV0 (addr : Addr)
  | rndAnd (rx : Reg) (imm : Byte)
  | drawSprite (rx ry : Reg) (n : Nibble)
  | skipKeyPressed (rx : Reg)
  | skipKeyNPressed (rx : Reg)
  | getDelay (rx : Reg)
  | waitForKey (rx : Reg)
  | setDelay (rx : Reg)
  | setSound (rx : Reg)
  | addIndex (rx : Reg)
  | spriteLoc (rx : Reg)
  | storeBCD (rx : Reg)
  | storeRegs (rx : Reg)
  | loadRegs (rx : Reg)
  deriving DecidableEq, Repr

end Sys2Proof
end

