-- ==== Sys2Proof/Decode.lean ====
section
/-! DEFINITION. The decoder (R85 to R96), the encoder (R100) written from the formats of R86, and the opcode table (R93). -/

namespace Sys2Proof

/-! The fields of an instruction word (R87). -/

/-- `op = w[15:12]`. -/
def fieldOp (w : Half) : Nibble := w.extractLsb' 12 4
/-- `rx = w[11:8]`. -/
def fieldRx (w : Half) : Reg := (w.extractLsb' 8 4).toFin
/-- `ry = w[7:4]`. -/
def fieldRy (w : Half) : Reg := (w.extractLsb' 4 4).toFin
/-- `n = sub4 = w[3:0]`. -/
def fieldN (w : Half) : Nibble := w.extractLsb' 0 4
/-- `imm = sub8 = w[7:0]`. -/
def fieldImm (w : Half) : Byte := w.extractLsb' 0 8
/-- `addr = w[11:0]`. -/
def fieldAddr (w : Half) : Addr := w.extractLsb' 0 12

/-- Group 0 (R90): the whole word selects. -/
def decodeGroup0 (w : Half) : Option Instr :=
  if w = 0x00E0#16 then some .cls else if w = 0x00EE#16 then some .ret else none

/-- Group 8 (R92): the low nibble selects. -/
def decodeGroup8 (w : Half) : Option Instr :=
  match fieldN w with
  | 0x0#4 => some (.move (fieldRx w) (fieldRy w))
  | 0x1#4 => some (.or (fieldRx w) (fieldRy w))
  | 0x2#4 => some (.and (fieldRx w) (fieldRy w))
  | 0x3#4 => some (.xor (fieldRx w) (fieldRy w))
  | 0x4#4 => some (.add (fieldRx w) (fieldRy w))
  | 0x5#4 => some (.sub (fieldRx w) (fieldRy w))
  | 0x6#4 => some (.shr (fieldRx w) (fieldRy w))
  | 0x7#4 => some (.subN (fieldRx w) (fieldRy w))
  | 0xE#4 => some (.shl (fieldRx w) (fieldRy w))
  | _ => none

/-- Group E (R94): the low byte selects. -/
def decodeGroupE (w : Half) : Option Instr :=
  match fieldImm w with
  | 0x9E#8 => some (.skipKeyPressed (fieldRx w))
  | 0xA1#8 => some (.skipKeyNPressed (fieldRx w))
  | _ => none

/-- Group F (R95): the low byte selects. Every binding but that of 0x55 is PRESUMED by the spec itself (its G2, D3; log 15). -/
def decodeGroupF (w : Half) : Option Instr :=
  match fieldImm w with
  | 0x07#8 => some (.getDelay (fieldRx w))
  | 0x0A#8 => some (.waitForKey (fieldRx w))
  | 0x15#8 => some (.setDelay (fieldRx w))
  | 0x18#8 => some (.setSound (fieldRx w))
  | 0x1E#8 => some (.addIndex (fieldRx w))
  | 0x29#8 => some (.spriteLoc (fieldRx w))
  | 0x33#8 => some (.storeBCD (fieldRx w))
  | 0x55#8 => some (.storeRegs (fieldRx w))
  | 0x65#8 => some (.loadRegs (fieldRx w))
  | _ => none

/-- `decode` (R89): pure and total on all 65536 words, `none` for every word outside the table. It dispatches on `op`,
then on the selector of the groups 0, 5, 8, 9, E and F. -/
def decode (w : Half) : Option Instr :=
  match fieldOp w with
  | 0x0#4 => decodeGroup0 w
  | 0x1#4 => some (.jump (fieldAddr w))
  | 0x2#4 => some (.call (fieldAddr w))
  | 0x3#4 => some (.skipEqI (fieldRx w) (fieldImm w))
  | 0x4#4 => some (.skipNeqI (fieldRx w) (fieldImm w))
  | 0x5#4 => if fieldN w = 0x0#4 then some (.skipEq (fieldRx w) (fieldRy w)) else none
  | 0x6#4 => some (.loadI (fieldRx w) (fieldImm w))
  | 0x7#4 => some (.addI (fieldRx w) (fieldImm w))
  | 0x8#4 => decodeGroup8 w
  | 0x9#4 => if fieldN w = 0x0#4 then some (.skipNeq (fieldRx w) (fieldRy w)) else none
  | 0xA#4 => some (.loadA (fieldAddr w))
  | 0xB#4 => some (.jumpV0 (fieldAddr w))
  | 0xC#4 => some (.rndAnd (fieldRx w) (fieldImm w))
  | 0xD#4 => some (.drawSprite (fieldRx w) (fieldRy w) (fieldN w))
  | 0xE#4 => decodeGroupE w
  | 0xF#4 => decodeGroupF w
  | _ => none

/-- Why bytes give no instruction. -/
inductive DecodeError where
  /-- Fewer than two bytes: an instruction is always two (R85). -/
  | truncated
  /-- The word matches no row of the table (R96). -/
  | illegalWord (w : Half)
  deriving DecidableEq, Repr

/-- The word of two bytes, the first the high one (R63). -/
def wordOfBytes (hi lo : Byte) : Half := hi ++ lo

/-- The instruction at the head of a list of bytes, and the bytes after it; total, every rejection named. -/
def decodeBytes : List Byte → Except DecodeError (Instr × List Byte)
  | hi :: lo :: rest =>
    match decode (wordOfBytes hi lo) with
    | some i => .ok (i, rest)
    | none => .error (.illegalWord (wordOfBytes hi lo))
  | [_] => .error .truncated
  | [] => .error .truncated

/-! The encoder: the six formats of R86, then one line per instruction (R93, R100). -/

/-- The four bits of a register field. -/
def regBits (r : Reg) : Nibble := BitVec.ofFin r

/-- Format `A`. -/
def formatA (op : Nibble) (addr : Addr) : Half := op ++ addr
/-- Formats `XI` and `X`: `op`, `rx`, and a low byte that is `imm` or `sub8`. -/
def formatX (op : Nibble) (rx : Reg) (low : Byte) : Half := op ++ (regBits rx ++ low : Addr)
/-- Formats `XY` and `XYN`: `op`, `rx`, `ry`, and a low nibble that is `sub4` or `n`. -/
def formatXY (op : Nibble) (rx ry : Reg) (low : Nibble) : Half :=
  op ++ (regBits rx ++ (regBits ry ++ low : Byte) : Addr)

/-- The word of an instruction (R100). -/
def encode : Instr → Half
  | .cls => 0x00E0#16
  | .ret => 0x00EE#16
  | .jump addr => formatA 0x1#4 addr
  | .call addr => formatA 0x2#4 addr
  | .skipEqI rx imm => formatX 0x3#4 rx imm
  | .skipNeqI rx imm => formatX 0x4#4 rx imm
  | .skipEq rx ry => formatXY 0x5#4 rx ry 0x0#4
  | .loadI rx imm => formatX 0x6#4 rx imm
  | .addI rx imm => formatX 0x7#4 rx imm
  | .move rx ry => formatXY 0x8#4 rx ry 0x0#4
  | .or rx ry => formatXY 0x8#4 rx ry 0x1#4
  | .and rx ry => formatXY 0x8#4 rx ry 0x2#4
  | .xor rx ry => formatXY 0x8#4 rx ry 0x3#4
  | .add rx ry => formatXY 0x8#4 rx ry 0x4#4
  | .sub rx ry => formatXY 0x8#4 rx ry 0x5#4
  | .shr rx ry => formatXY 0x8#4 rx ry 0x6#4
  | .subN rx ry => formatXY 0x8#4 rx ry 0x7#4
  | .shl rx ry => formatXY 0x8#4 rx ry 0xE#4
  | .skipNeq rx ry => formatXY 0x9#4 rx ry 0x0#4
  | .loadA addr => formatA 0xA#4 addr
  | .jumpV0 addr => formatA 0xB#4 addr
  | .rndAnd rx imm => formatX 0xC#4 rx imm
  | .drawSprite rx ry n => formatXY 0xD#4 rx ry n
  | .skipKeyPressed rx => formatX 0xE#4 rx 0x9E#8
  | .skipKeyNPressed rx => formatX 0xE#4 rx 0xA1#8
  | .getDelay rx => formatX 0xF#4 rx 0x07#8
  | .waitForKey rx => formatX 0xF#4 rx 0x0A#8
  | .setDelay rx => formatX 0xF#4 rx 0x15#8
  | .setSound rx => formatX 0xF#4 rx 0x18#8
  | .addIndex rx => formatX 0xF#4 rx 0x1E#8
  | .spriteLoc rx => formatX 0xF#4 rx 0x29#8
  | .storeBCD rx => formatX 0xF#4 rx 0x33#8
  | .storeRegs rx => formatX 0xF#4 rx 0x55#8
  | .loadRegs rx => formatX 0xF#4 rx 0x65#8

/-- The two bytes of an instruction as memory holds them, high byte first (R63, R85). -/
def encodeBytes (i : Instr) : List Byte := [(encode i).extractLsb' 8 8, (encode i).extractLsb' 0 8]

/-! The opcode table of R93: a word `w` is the row's instruction exactly when `w & mask = match`. -/

/-- One row of the table. -/
structure OpcodeRow where
  mnemonic : String
  matchBits : Half
  mask : Half
  deriving DecidableEq, Repr

/-- The word agrees with the row in the row's fixed bits. -/
def OpcodeRow.accepts (r : OpcodeRow) (w : Half) : Bool := (w &&& r.mask) == r.matchBits

/-- The row of R93 that an instruction belongs to. -/
def rowOf : Instr → OpcodeRow
  | .cls => ⟨"Cls", 0x00E0#16, 0xFFFF#16⟩
  | .ret => ⟨"Ret", 0x00EE#16, 0xFFFF#16⟩
  | .jump _ => ⟨"Jump", 0x1000#16, 0xF000#16⟩
  | .call _ => ⟨"Call", 0x2000#16, 0xF000#16⟩
  | .skipEqI _ _ => ⟨"SkipEqI", 0x3000#16, 0xF000#16⟩
  | .skipNeqI _ _ => ⟨"SkipNeqI", 0x4000#16, 0xF000#16⟩
  | .skipEq _ _ => ⟨"SkipEq", 0x5000#16, 0xF00F#16⟩
  | .loadI _ _ => ⟨"LoadI", 0x6000#16, 0xF000#16⟩
  | .addI _ _ => ⟨"AddI", 0x7000#16, 0xF000#16⟩
  | .move _ _ => ⟨"Move", 0x8000#16, 0xF00F#16⟩
  | .or _ _ => ⟨"Or", 0x8001#16, 0xF00F#16⟩
  | .and _ _ => ⟨"And", 0x8002#16, 0xF00F#16⟩
  | .xor _ _ => ⟨"Xor", 0x8003#16, 0xF00F#16⟩
  | .add _ _ => ⟨"Add", 0x8004#16, 0xF00F#16⟩
  | .sub _ _ => ⟨"Sub", 0x8005#16, 0xF00F#16⟩
  | .shr _ _ => ⟨"Shr", 0x8006#16, 0xF00F#16⟩
  | .subN _ _ => ⟨"SubN", 0x8007#16, 0xF00F#16⟩
  | .shl _ _ => ⟨"Shl", 0x800E#16, 0xF00F#16⟩
  | .skipNeq _ _ => ⟨"SkipNeq", 0x9000#16, 0xF00F#16⟩
  | .loadA _ => ⟨"LoadA", 0xA000#16, 0xF000#16⟩
  | .jumpV0 _ => ⟨"JumpV0", 0xB000#16, 0xF000#16⟩
  | .rndAnd _ _ => ⟨"RndAnd", 0xC000#16, 0xF000#16⟩
  | .drawSprite _ _ _ => ⟨"DrawSprite", 0xD000#16, 0xF000#16⟩
  | .skipKeyPressed _ => ⟨"SkipKeyPressed", 0xE09E#16, 0xF0FF#16⟩
  | .skipKeyNPressed _ => ⟨"SkipKeyNPressed", 0xE0A1#16, 0xF0FF#16⟩
  | .getDelay _ => ⟨"GetDelay", 0xF007#16, 0xF0FF#16⟩
  | .waitForKey _ => ⟨"WaitForKey", 0xF00A#16, 0xF0FF#16⟩
  | .setDelay _ => ⟨"SetDelay", 0xF015#16, 0xF0FF#16⟩
  | .setSound _ => ⟨"SetSound", 0xF018#16, 0xF0FF#16⟩
  | .addIndex _ => ⟨"AddIndex", 0xF01E#16, 0xF0FF#16⟩
  | .spriteLoc _ => ⟨"SpriteLoc", 0xF029#16, 0xF0FF#16⟩
  | .storeBCD _ => ⟨"StoreBCD", 0xF033#16, 0xF0FF#16⟩
  | .storeRegs _ => ⟨"StoreRegs", 0xF055#16, 0xF0FF#16⟩
  | .loadRegs _ => ⟨"LoadRegs", 0xF065#16, 0xF0FF#16⟩

/-- The 34 rows in the order of R93, one from an instruction of each. -/
def opcodeTable : List OpcodeRow :=
  [.cls, .ret, .jump 0, .call 0, .skipEqI 0 0, .skipNeqI 0 0, .skipEq 0 0, .loadI 0 0, .addI 0 0, .move 0 0, .or 0 0,
    .and 0 0, .xor 0 0, .add 0 0, .sub 0 0, .shr 0 0, .subN 0 0, .shl 0 0, .skipNeq 0 0, .loadA 0, .jumpV0 0,
    .rndAnd 0 0, .drawSprite 0 0 0, .skipKeyPressed 0, .skipKeyNPressed 0, .getDelay 0, .waitForKey 0, .setDelay 0,
    .setSound 0, .addIndex 0, .spriteLoc 0, .storeBCD 0, .storeRegs 0, .loadRegs 0].map rowOf

/-- The instruction of a word numbered as spec/opcode_table.json numbers it: its bits above `nbits` zero, laid out as the
hardware stores it (R63) and read by `decodeBytes`. -/
def decodeTableWord (nbits w : Nat) : Option Instr :=
  match decodeBytes [(BitVec.ofNat 16 (w % 2 ^ nbits)).extractLsb' 8 8, (BitVec.ofNat 16 (w % 2 ^ nbits)).extractLsb' 0 8] with
  | .ok (i, _) => some i
  | .error _ => none

end Sys2Proof
end

