-- ==== Sys2Proof/Config.lean ====
section
/-! DEFINITION. The fixed constants of R6, the parameters of R7, and the open generator seeds. -/

namespace Sys2Proof

/-- `MEM_SIZE` (R6). -/
@[simp] abbrev Config.memSize : Nat := 4096
/-- `ROM_BASE` (R6). -/
@[simp] abbrev Config.romBase : Nat := 0x200
/-- `ROM_MAX` (R6). -/
@[simp] abbrev Config.romMax : Nat := 3584
/-- `RESET_PC` (R6, R22). -/
@[simp] abbrev Config.resetPc : Half := 0x200#16
/-- `FLAG_REG` (R6, R21). -/
@[simp] abbrev Config.flagReg : Reg := 15
/-- `STACK_DEPTH` (R6). -/
@[simp] abbrev Config.stackDepth : Nat := 16
/-- `W` (R6): pixels in a row. -/
@[simp] abbrev Config.width : Nat := 64
/-- `H` (R6): rows. -/
@[simp] abbrev Config.height : Nat := 32
/-- Pixels of the framebuffer, `W` times `H` (R32). -/
@[simp] abbrev Config.pixels : Nat := 2048
/-- `PERIPHERAL_HZ` (R6). -/
@[simp] abbrev Config.peripheralHz : Nat := 60
/-- `GLYPH_BYTES` (R6). -/
@[simp] abbrev Config.glyphBytes : Nat := 5
/-- `RNG_MULT` (R6, R181). -/
@[simp] abbrev Config.rngMult : Long := 0x5851F42D4C957F2D#64
/-- `ON_COLOR` (R7, D16). -/
@[simp] abbrev Config.onColor : Word := 0xFFFFFFFF#32
/-- `CLEAR_COLOR` (R7, D16). -/
@[simp] abbrev Config.clearColor : Word := 0#32

/-- The default of the parameter `FONT` (R41, row by row). PRESUMED by the spec itself: its G1 takes the 80 bytes from
general knowledge of the family (log 1, unsafe). -/
def Config.font : List Byte := [
  0xF0#8, 0x90#8, 0x90#8, 0x90#8, 0xF0#8,
  0x20#8, 0x60#8, 0x20#8, 0x20#8, 0x70#8,
  0xF0#8, 0x10#8, 0xF0#8, 0x80#8, 0xF0#8,
  0xF0#8, 0x10#8, 0xF0#8, 0x10#8, 0xF0#8,
  0x90#8, 0x90#8, 0xF0#8, 0x10#8, 0x10#8,
  0xF0#8, 0x80#8, 0xF0#8, 0x10#8, 0xF0#8,
  0xF0#8, 0x80#8, 0xF0#8, 0x90#8, 0xF0#8,
  0xF0#8, 0x10#8, 0x20#8, 0x40#8, 0x40#8,
  0xF0#8, 0x90#8, 0xF0#8, 0x90#8, 0xF0#8,
  0xF0#8, 0x90#8, 0xF0#8, 0x10#8, 0xF0#8,
  0xF0#8, 0x90#8, 0xF0#8, 0x90#8, 0x90#8,
  0xE0#8, 0x90#8, 0xE0#8, 0x90#8, 0xE0#8,
  0xF0#8, 0x80#8, 0x80#8, 0x80#8, 0xF0#8,
  0xE0#8, 0x90#8, 0x90#8, 0x90#8, 0xE0#8,
  0xF0#8, 0x80#8, 0xF0#8, 0x80#8, 0xF0#8,
  0xF0#8, 0x80#8, 0xF0#8, 0x80#8, 0x80#8]

/-- The parameters of a CORE instance (R7), the argument of its construction (R260). -/
structure Params where
  /-- The argument of `new`; R260 asks that it be at least 60. -/
  cpuHz : Word
  /-- `RNG_SEED` (D18). -/
  rngSeed : Long
  /-- `RNG_SEQ` (D18). -/
  rngSeq : Long
  /-- `INVERT_Y` (D17). -/
  invertY : Bool
  /-- `FONT` (D21). -/
  font : Vector Byte 80
  deriving DecidableEq, Repr

/-- `RNG_SEED` of the instance that `State.reset` stands for: OPEN in R7, so a constant without a body (log 4, safe). -/
opaque Config.rngSeed : Long

/-- `RNG_SEQ` of the instance that `State.reset` stands for: OPEN in R7, so a constant without a body (log 4, safe). -/
opaque Config.rngSeq : Long

/-- The default font as the vector that the parameter is. -/
def Config.fontVector : Vector Byte 80 := ⟨Config.font.toArray, rfl⟩

/-- The parameters of the instance that `State.reset` stands for. DESIGN CHOICE: 500 Hz, the rate of the spec's own test
vectors (log 3, unsafe), and the spec's default for the row inversion (log 5, unsafe); the seeds stay open. -/
def Config.params : Params :=
  { cpuHz := 500#32, rngSeed := Config.rngSeed, rngSeq := Config.rngSeq, invertY := false, font := Config.fontVector }

end Sys2Proof
end

