-- ==== Sys2Proof/Machine/Sparse.lean ====
section
/-! DEFINITION. Sparse data by address in one canonical form: a list of (address, value) pairs with addresses strictly
rising, and no entry equal to what an unlisted address holds. Main memory and the framebuffer are both kept so. -/

namespace Sys2Proof.Machine

/-- The value at address `k`: the listed one, else the default `d k`. -/
def sparseGet {w : Nat} (d : Nat → BitVec w) : List (Nat × BitVec w) → Nat → BitVec w
  | [], k => d k
  | (j, v) :: rest, k => if j = k then v else sparseGet d rest k

/-- The list with `v` at address `k`, in canonical form: writing the default removes the entry. -/
def sparseSet {w : Nat} (d : Nat → BitVec w) (k : Nat) (v : BitVec w) : List (Nat × BitVec w) → List (Nat × BitVec w)
  | [] => if v = d k then [] else [(k, v)]
  | (j, u) :: rest =>
    if k < j then (if v = d k then (j, u) :: rest else (k, v) :: (j, u) :: rest)
    else if k = j then (if v = d k then rest else (k, v) :: rest)
    else (j, u) :: sparseSet d k v rest

/-- The canonical form: every address is at least `low`, all rise strictly and stay below `bound`, and no entry holds the
default. -/
def sparseWfFrom {w : Nat} (d : Nat → BitVec w) (bound : Nat) : Nat → List (Nat × BitVec w) → Bool
  | _, [] => true
  | low, (k, v) :: rest => decide (low ≤ k) && decide (k < bound) && decide (v ≠ d k) && sparseWfFrom d bound (k + 1) rest

end Sys2Proof.Machine
end

