-- ==== Sys2Proof/Machine/Display.lean ====
section
/-! DEFINITION. The Display unit (R32, R33, R160 to R164) and the blit that DrawSprite runs (R167). -/

namespace Sys2Proof.Machine

/-- The framebuffer: the pixels that differ from `CLEAR_COLOR`, by rising buffer offset. -/
abbrev Framebuffer := List (Nat × Word)

/-- What an unlisted pixel holds: `CLEAR_COLOR`, its value at reset (R32). -/
def resetPixel (_ : Nat) : Word := Config.clearColor

/-- `fb[o]`. -/
def Framebuffer.get (fb : Framebuffer) (o : Nat) : Word := sparseGet resetPixel fb o

/-- `fb[o] <- c`. -/
def Framebuffer.set (fb : Framebuffer) (o : Nat) (c : Word) : Framebuffer := sparseSet resetPixel o c fb

/-- The canonical form, with every listed offset below 2048. -/
def Framebuffer.wf (fb : Framebuffer) : Bool := sparseWfFrom resetPixel Config.pixels 0 fb

/-- `Row(y)` (R160). -/
def displayRow (invertY : Bool) (y : Nat) : Nat := if invertY then 31 - y else y

/-- `Offset(x, y)` (R160), for `x` below 64 and `y` below 32. -/
def displayOffset (invertY : Bool) (x y : Nat) : Nat := displayRow invertY y * Config.width + x

/-- `clear(color)` (R161): every one of the 2048 pixels becomes `color`. -/
def displayClear (color : Word) : Framebuffer :=
  if color = Config.clearColor then [] else (List.range Config.pixels).map fun o => (o, color)

/-- `set_pixel(x, y, color)` (R164); no instruction and no host operation reaches it. -/
def setPixel (invertY : Bool) (fb : Framebuffer) (x y : Nat) (color : Word) : Framebuffer :=
  Framebuffer.set fb (displayOffset invertY x y) color

/-- `xor_pixel(x, y, color)` (R162): the new framebuffer, and whether prior pixel and `color` were both nonzero. -/
def xorPixel (invertY : Bool) (fb : Framebuffer) (x y : Nat) (color : Word) : Framebuffer × Bool :=
  let old := Framebuffer.get fb (displayOffset invertY x y)
  (Framebuffer.set fb (displayOffset invertY x y) (old ^^^ color), decide (old ≠ 0#32) && decide (color ≠ 0#32))

/-- The colour of column `dx` of a sprite byte (R167): bit 7 is the leftmost column. -/
def spriteColor (b : Byte) (dx : Nat) : Word := if b.getLsbD (7 - dx) then Config.onColor else 0#32

/-- The columns `dxs` of one sprite row `b` at column `x0`, row `y`; the flag collects the hits. -/
def blitColumns (invertY : Bool) (b : Byte) (x0 y : Nat) : List Nat → Framebuffer × Bool → Framebuffer × Bool
  | [], acc => acc
  | dx :: rest, acc =>
    let r := xorPixel invertY acc.1 ((x0 + dx) % Config.width) y (spriteColor b dx)
    blitColumns invertY b x0 y rest (r.1, acc.2 || r.2)

/-- The sprite rows from row number `dy` on (R167), each at row `(y0 + dy) mod 32`. -/
def blitRows (invertY : Bool) (x0 y0 : Nat) : Nat → List Byte → Framebuffer × Bool → Framebuffer × Bool
  | _, [], acc => acc
  | dy, b :: rest, acc =>
    blitRows invertY x0 y0 (dy + 1) rest
      (blitColumns invertY b x0 ((y0 + dy) % Config.height) [0, 1, 2, 3, 4, 5, 6, 7] acc)

/-- The whole sprite at `(x0, y0)` (R167): the new framebuffer and whether any lit pixel was erased. -/
def blitSprite (invertY : Bool) (fb : Framebuffer) (x0 y0 : Nat) (rows : List Byte) : Framebuffer × Bool :=
  blitRows invertY x0 y0 0 rows (fb, false)

end Sys2Proof.Machine
end

