-- ==== Sys2Proof/Machine/Memory.lean ====
section
/-! DEFINITION. Main memory (R30, R60 to R63): 4096 bytes, one at an address. -/

namespace Sys2Proof.Machine

/-- Main memory: the bytes that differ from what `resetByte` gives, by rising address. -/
abbrev Memory := List Host.Cell

/-- What an unlisted address reads as: the reset content of memory (R30, R40), the font in 0x000 to 0x04F, 0x00 elsewhere. -/
def resetByte (a : Nat) : Byte := Config.font.getD a 0#8

/-- `MemRead(a, 1)` (R62); `a` is below 4096 wherever a meaning calls it. -/
def Memory.read (m : Memory) (a : Nat) : Byte := sparseGet resetByte m a

/-- `MemWrite(a, 1, v)` (R62); `a` is below 4096 wherever a meaning calls it. -/
def Memory.write (m : Memory) (a : Nat) (v : Byte) : Memory := sparseSet resetByte a v m

/-- The canonical form, with every listed address inside the 4096 bytes. -/
def Memory.wf (m : Memory) : Bool := sparseWfFrom resetByte Config.memSize 0 m

/-- Single-byte writes at `a`, `a + 1`, ... in ascending order (R68). -/
def Memory.writeBlock (m : Memory) (a : Nat) : List Byte → Memory
  | [] => m
  | b :: rest => Memory.writeBlock (Memory.write m a b) (a + 1) rest

/-- Single-byte reads of `n` bytes at `a`, `a + 1`, ... (R62). -/
def Memory.readBlock (m : Memory) (a : Nat) : Nat → List Byte
  | 0 => []
  | n + 1 => Memory.read m a :: Memory.readBlock m (a + 1) n

/-- `MemRead(a, 2)` (R62, R63): big-endian, used by instruction fetch only. -/
def Memory.readWord (m : Memory) (a : Nat) : Half := Memory.read m a ++ Memory.read m (a + 1)

end Sys2Proof.Machine
end

