-- ==== Sys2Proof/Machine/Rng.lean ====
section
/-! DEFINITION. The RandomGenerator unit (R29, R179 to R181). -/

namespace Sys2Proof.Machine

/-- The generator's state and its increment (R29). -/
structure Rng where
  state : Long
  inc : Long
  deriving DecidableEq, Repr

/-- `rotr32(v, r)` (00_scope section 6), for `r` below 32; a rotate by 0 gives `v`. -/
def rotr32 (v : Word) (r : Nat) : Word := (v >>> r) ||| (v <<< (32 - r))

/-- The output that `RngGenerate` computes from the state before the update (R181). -/
def rngOutput (old : Long) : Word :=
  rotr32 ((((old >>> 18) ^^^ old) >>> 27).setWidth 32) (old >>> 59).toNat

/-- The state update of `RngGenerate` (R181), modulo 2^64. The multiplier stands on the left so that the kernel never unrolls
a product with an unknown factor along it. -/
def rngAdvance (g : Rng) : Rng := { g with state := Config.rngMult * g.state + g.inc }

/-- `RngGenerate()` (R181): the output and the generator after it. -/
def rngGenerate (g : Rng) : Word × Rng := (rngOutput g.state, rngAdvance g)

/-- `RngReset(seed, sequence)` (R180), with its two discarded steps. -/
def rngReset (seed sequence : Long) : Rng :=
  let g0 : Rng := { state := 0#64, inc := (sequence <<< 1) ||| 1#64 }
  let g1 := (rngGenerate g0).2
  let g2 : Rng := { g1 with state := g1.state + seed }
  (rngGenerate g2).2

end Sys2Proof.Machine
end

