-- ==== Sys2Proof/Machine/State.lean ====
section
/-! DEFINITION. The state of CORE (10_state), its faults (R216), its construction and reset (R40, R260). -/

namespace Sys2Proof.Machine

/-- The execution status (R27, R205). -/
inductive Status where
  | running
  | waitingForKey
  /-- Entered only by the host action `halt` (R207). -/
  | halted
  deriving DecidableEq, Repr

/-- The fault kinds, a closed list (R216). A fault stops the step; the state it leaves is `State.afterFault` (R208, R221).
Each stop is safe: the spec gives the fault, and the model stops where CORE stops. -/
inductive Fault where
  /-- Raised by `fetchInstr` when the fetched word is no instruction (R202). Safe. -/
  | invalidInstruction
  /-- Raised by `fetchInstr` when `pc` is 4095 or more (R201), and by StoreBCD, StoreRegs, LoadRegs and DrawSprite when an
  access would leave memory (R146). Safe. -/
  | memoryError
  /-- Raised by Ret with an empty stack (R113). Safe. -/
  | popEmptyStack
  /-- Raised by Call with a full stack (R112). Safe. -/
  | stackOverflow
  /-- Raised by SpriteLoc with a register of 16 or more (R150). Safe. -/
  | invalidSprite
  /-- In the kind enumeration and raised by nothing (R219). Safe. -/
  | notImplemented
  deriving DecidableEq, Repr

/-- The refusals. Every instruction has its meaning, so nothing raises one. -/
inductive Refusal where
  /-- For an arm of `exec` without a meaning; no arm is left without one, so nobody raises it. Safe. -/
  | notModelled (mnemonic : String)
  deriving DecidableEq, Repr

/-- Everything the spec gives the machine (10_state R20 to R38). -/
structure State where
  /-- `V[0..15]` (R20); `V[15]` is the flag register (R21). -/
  v : Vector Byte 16
  /-- `I` (R24). -/
  i : Half
  /-- `pc` (R22). -/
  pc : Half
  /-- `stack[0..15]` (R25). -/
  stack : Vector Half 16
  /-- `sp`, the number of live entries, 0 to 16 (R26). -/
  sp : Fin 17
  /-- `status` (R27). -/
  status : Status
  /-- `cycles` (R28). -/
  cycles : Long
  /-- `rng.state` and `rng.inc` (R29). -/
  rng : Rng
  /-- `mem[0..4095]` (R30). -/
  mem : Memory
  /-- `fb[0..2047]` (R32). -/
  fb : Framebuffer
  /-- `invert_y` (R33). -/
  invertY : Bool
  /-- `keys` (R34). -/
  keys : Half
  /-- `DT`, the delay timer (R35). -/
  dt : Half
  /-- `ST`, the sound timer (R35). -/
  st : Half
  /-- `cpu_hz` (R37). -/
  cpuHz : Word
  /-- `acc`, the divider accumulator (R38). -/
  acc : Word
  deriving DecidableEq, Repr

/-- `new(cpu_hz)` with the instance's parameters (R260), value by value the table of R40. -/
def State.new (p : Params) : State :=
  { v := Vector.replicate 16 0#8
    i := 0#16
    pc := Config.resetPc
    stack := Vector.replicate 16 0#16
    sp := 0
    status := .running
    cycles := 0#64
    rng := rngReset p.rngSeed p.rngSeq
    mem := Memory.writeBlock [] 0 p.font.toList
    fb := displayClear Config.clearColor
    invertY := p.invertY
    keys := 0#16
    dt := 0#16
    st := 0#16
    cpuHz := p.cpuHz
    acc := 0#32 }

/-- The machine right after reset: the instance with the parameters `Config.params` (R40, R261; log 3, log 4, log 5). -/
def State.reset : State := State.new Config.params

end Sys2Proof.Machine
end

