-- ==== Sys2Proof/Machine/Operands.lean ====
section
/-! DEFINITION. The operand forms (R87, R88, R145, R177): registers, immediates, addresses, key codes. -/

namespace Sys2Proof.Machine

/-- `V[r]` (R20). -/
def State.reg (s : State) (r : Reg) : Byte := s.v[r.val]

/-- `V[r] <- b` (R20). -/
def State.setReg (s : State) (r : Reg) (b : Byte) : State := { s with v := s.v.set r.val b }

/-- `zext_16(addr)` (R88). -/
def addrOperand (addr : Addr) : Half := addr.setWidth 16

/-- `zext_16` of a byte. -/
def byteOperand (b : Byte) : Half := b.setWidth 16

/-- The key code in a register: its low four bits (R177, D14). -/
def keyIndex (b : Byte) : Nat := (b.extractLsb' 0 4).toNat

/-- `KeyDown(v)` (R177). -/
def keyDownAt (keys : Half) (b : Byte) : Bool := keys.getLsbD (keyIndex b)

/-- `first_key_pressed()` (R176): the least `k` with `keys[k] = 1`. -/
def firstKeyPressed (keys : Half) : Option Nat := (List.range 16).find? fun k => keys.getLsbD k

/-- The hundreds, tens and units of a byte (R151). -/
def bcdDigits (b : Byte) : List Byte :=
  [BitVec.ofNat 8 (b.toNat / 100), BitVec.ofNat 8 (b.toNat / 10 % 10), BitVec.ofNat 8 (b.toNat % 10)]

/-- The registers `V[0..rx]` as bytes in ascending order (R152). -/
def State.regBlock (s : State) (rx : Reg) : List Byte := s.v.toList.take (rx.val + 1)

/-- The register file with `V[0..rx]` taken from `bytes` and the registers above `rx` kept (R153). -/
def loadBlock (v : Vector Byte 16) (k : Nat) : List Byte → Vector Byte 16
  | [] => v
  | b :: rest => loadBlock (v.setIfInBounds k b) (k + 1) rest

end Sys2Proof.Machine
end

