-- ==== Sys2Proof/Machine/Flags.lean ====
section
/-! DEFINITION. The value each flag-writing instruction gives `V[15]` (R21, R131 to R135, R167): a whole byte, 0 or 1. -/

namespace Sys2Proof.Machine

/-- A flag as the byte stored in `V[15]`: bits 7:1 zero (R21). -/
def flagByte (c : Bool) : Byte := if c then 1#8 else 0#8

/-- Add: carry of the 9-bit sum (R131). -/
def addFlag (a b : Byte) : Byte := flagByte (decide (256 ≤ a.toNat + b.toNat))

/-- Sub and SubN: minuend strictly greater than subtrahend (R132, R134, C2). -/
def subFlag (minuend subtrahend : Byte) : Byte := flagByte (decide (subtrahend.toNat < minuend.toNat))

/-- Shr: the bit about to be shifted out, bit 0 (R133). -/
def shrFlag (a : Byte) : Byte := flagByte (a.getLsbD 0)

/-- Shl: the bit about to be shifted out, bit 7 (R135). -/
def shlFlag (a : Byte) : Byte := flagByte (a.getLsbD 7)

/-- DrawSprite: whether any lit pixel was erased (R167). -/
def collisionFlag (hit : Bool) : Byte := flagByte hit

/-- `V[15] <- f`. -/
def State.setFlag (s : State) (f : Byte) : State := s.setReg Config.flagReg f

end Sys2Proof.Machine
end

