-- ==== Sys2Proof/Machine/Ops.lean ====
section
/-! DEFINITION. The operations the meanings share: finishing an instruction (R203), skips (R110), the call stack (R25,
R26), data memory behind its range check (R146), raising a fault (R215, R221), the timers and the divider (R236, R237). -/

namespace Sys2Proof.Machine

/-- What `exec` and `step` answer. -/
abbrev Result := Host.Outcome State Fault Refusal

/-- Raising a fault (R215, R221): the instruction has no effect, nothing is saved, there is no handler (R222) and control
is with the host. The state CORE is left in is `State.afterFault`. There is no return from a fault (R225): the host
calls `advance_ms` again, or constructs a new instance. -/
def raiseFault (f : Fault) (_ : State) : Result := .fault f

/-- `Tick`'s first action: `cycles <- (cycles + 1) mod 2^64` (R200, R28). -/
def State.countCycle (s : State) : State := { s with cycles := s.cycles + 1#64 }

/-- What a faulting Tick leaves: the counted cycle and nothing else (R208, R221). -/
def State.afterFault (s : State) : State := s.countCycle

/-- `pc <- a` (R22). -/
def State.setPc (s : State) (a : Half) : State := { s with pc := a }

/-- Applying an instruction's result (R203): `none` is `pc + 2`, an address is the new `pc`. -/
def finish (next : Option Half) (s : State) : Result := .next (s.setPc (next.getD (s.pc + 2#16)))

/-- A skip (R110): `pc + 4` when the condition holds, else `pc + 2`. -/
def skipWhen (c : Bool) (s : State) : Result := finish (if c then some (s.pc + 4#16) else none) s

/-- The push of Call (R112): `none` when the stack is full. -/
def State.push (s : State) (a : Half) : Option State :=
  if h : s.sp.val < Config.stackDepth then
    some { s with stack := s.stack.set s.sp.val a h, sp := ⟨s.sp.val + 1, Nat.succ_lt_succ h⟩ }
  else none

/-- The pop of Ret (R113): `none` when the stack is empty, else the popped address; its entry stays, dead. -/
def State.pop (s : State) : Option (Half × State) :=
  match s.sp with
  | ⟨0, _⟩ => none
  | ⟨k + 1, h⟩ => some (s.stack[k]'(Nat.lt_of_succ_lt_succ h), { s with sp := ⟨k, Nat.lt_of_succ_lt h⟩ })

/-- The byte of main memory at `a` (R62). -/
def State.readByte (s : State) (a : Nat) : Byte := s.mem.read a

/-- The address in `I` as a number (R145: effective addresses are exact, never wrapped). -/
def State.base (s : State) : Nat := s.i.toNat

/-- `CheckRange(cnt)` for `cnt ≥ 1` (R146): `I + cnt − 1 ≤ 4095`. -/
def State.inRange (s : State) (cnt : Nat) : Bool := decide (s.base + cnt ≤ Config.memSize)

/-- `cnt` bytes from `I` up (R145). -/
def State.loadBytes (s : State) (cnt : Nat) : List Byte := s.mem.readBlock s.base cnt

/-- Single-byte stores from `I` up (R145, R151, R152). -/
def State.storeBytes (s : State) (bytes : List Byte) : State := { s with mem := s.mem.writeBlock s.base bytes }

/-- Storing `bytes` at `I` behind the range check: all or nothing (R146). -/
def storeAtIndex (bytes : List Byte) (s : State) : Result :=
  if s.inRange bytes.length then finish none (s.storeBytes bytes) else raiseFault .memoryError s

/-- One timer's decrement, never below zero (R236). -/
def decrementTimer (t : Half) : Half := if t = 0#16 then t else t - 1#16

/-- `PeripheralTick()` (R236). -/
def peripheralTick (s : State) : State := { s with dt := decrementTimer s.dt, st := decrementTimer s.st }

/-- Whether the divider step that follows a Tick fires (R237): `acc + 60`, formed without overflow (D23), reaches `cpu_hz`. -/
def State.dividerFires (s : State) : Bool := decide (s.cpuHz.toNat ≤ s.acc.toNat + Config.peripheralHz)

/-- `DividerStep()` (R237): a single test, not a loop (D25). -/
def dividerStep (s : State) : State :=
  let t := if s.dividerFires then peripheralTick s else s
  { t with acc := BitVec.ofNat 32 (if s.dividerFires then s.acc.toNat + Config.peripheralHz - s.cpuHz.toNat
                                   else s.acc.toNat + Config.peripheralHz) }

end Sys2Proof.Machine
end

