-- ==== Sys2Proof/Machine/Alu.lean ====
section
/-! DEFINITION. The load and ALU family (41_load_alu). Operands are read before any write; Add, Sub and SubN write the flag
last, Shr and Shl write it first (R137, C1). -/

namespace Sys2Proof.Machine

/-- LoadI (R125). -/
def execLoadI (rx : Reg) (imm : Byte) (s : State) : Result := finish none (s.setReg rx imm)

/-- AddI (R126): no flag, even when the sum wraps. -/
def execAddI (rx : Reg) (imm : Byte) (s : State) : Result := finish none (s.setReg rx (s.reg rx + imm))

/-- Move (R127). -/
def execMove (rx ry : Reg) (s : State) : Result := finish none (s.setReg rx (s.reg ry))

/-- Or (R128). -/
def execOr (rx ry : Reg) (s : State) : Result := finish none (s.setReg rx (s.reg rx ||| s.reg ry))

/-- And (R129). -/
def execAnd (rx ry : Reg) (s : State) : Result := finish none (s.setReg rx (s.reg rx &&& s.reg ry))

/-- Xor (R130). -/
def execXor (rx ry : Reg) (s : State) : Result := finish none (s.setReg rx (s.reg rx ^^^ s.reg ry))

/-- Add (R131). -/
def execAdd (rx ry : Reg) (s : State) : Result :=
  finish none ((s.setReg rx (s.reg rx + s.reg ry)).setFlag (addFlag (s.reg rx) (s.reg ry)))

/-- Sub (R132). -/
def execSub (rx ry : Reg) (s : State) : Result :=
  finish none ((s.setReg rx (s.reg rx - s.reg ry)).setFlag (subFlag (s.reg rx) (s.reg ry)))

/-- Shr (R133): the flag first, then `V[rx]` read again and shifted; `ry` is not used (R98). -/
def execShr (rx _ry : Reg) (s : State) : Result :=
  let t := s.setFlag (shrFlag (s.reg rx))
  finish none (t.setReg rx (t.reg rx >>> 1))

/-- SubN (R134). -/
def execSubN (rx ry : Reg) (s : State) : Result :=
  finish none ((s.setReg rx (s.reg ry - s.reg rx)).setFlag (subFlag (s.reg ry) (s.reg rx)))

/-- Shl (R135): the flag first, then `V[rx]` read again and shifted; `ry` is not used (R98). -/
def execShl (rx _ry : Reg) (s : State) : Result :=
  let t := s.setFlag (shlFlag (s.reg rx))
  finish none (t.setReg rx (t.reg rx <<< 1))

end Sys2Proof.Machine
end

