-- ==== Sys2Proof/Machine/Control.lean ====
section
/-! DEFINITION. The control transfer family (40_control_transfer): Jump, Call, Ret, JumpV0 and the four register skips. -/

namespace Sys2Proof.Machine

/-- Ret (R113). -/
def execRet (s : State) : Result :=
  match s.pop with
  | none => raiseFault .popEmptyStack s
  | some (a, t) => finish (some a) t

/-- Jump (R111). -/
def execJump (addr : Addr) (s : State) : Result := finish (some (addrOperand addr)) s

/-- Call (R112). -/
def execCall (addr : Addr) (s : State) : Result :=
  match s.push (s.pc + 2#16) with
  | none => raiseFault .stackOverflow s
  | some t => finish (some (addrOperand addr)) t

/-- JumpV0 (R114): not reduced modulo 4096. -/
def execJumpV0 (addr : Addr) (s : State) : Result := finish (some (byteOperand (s.reg 0) + addrOperand addr)) s

/-- SkipEqI (R115). -/
def execSkipEqI (rx : Reg) (imm : Byte) (s : State) : Result := skipWhen (decide (s.reg rx = imm)) s

/-- SkipNeqI (R116). -/
def execSkipNeqI (rx : Reg) (imm : Byte) (s : State) : Result := skipWhen (decide (s.reg rx ≠ imm)) s

/-- SkipEq (R117). -/
def execSkipEq (rx ry : Reg) (s : State) : Result := skipWhen (decide (s.reg rx = s.reg ry)) s

/-- SkipNeq (R118). -/
def execSkipNeq (rx ry : Reg) (s : State) : Result := skipWhen (decide (s.reg rx ≠ s.reg ry)) s

end Sys2Proof.Machine
end

