-- ==== Sys2Proof/Machine/Devices.lean ====
section
/-! DEFINITION. The keypad, timer and random family (44_keypad_timer_random). -/

namespace Sys2Proof.Machine

/-- SkipKeyPressed (R182). -/
def execSkipKeyPressed (rx : Reg) (s : State) : Result := skipWhen (keyDownAt s.keys (s.reg rx)) s

/-- SkipKeyNPressed (R183). -/
def execSkipKeyNPressed (rx : Reg) (s : State) : Result := skipWhen (!keyDownAt s.keys (s.reg rx)) s

/-- WaitForKey (R184): with no key held the same instruction runs again at the next Tick. -/
def execWaitForKey (rx : Reg) (s : State) : Result :=
  match firstKeyPressed s.keys with
  | some k => finish none { s.setReg rx (BitVec.ofNat 8 k) with status := .running }
  | none => finish (some s.pc) { s with status := .waitingForKey }

/-- GetDelay (R186): `DT[7:0]`. -/
def execGetDelay (rx : Reg) (s : State) : Result := finish none (s.setReg rx (s.dt.setWidth 8))

/-- SetDelay (R187). -/
def execSetDelay (rx : Reg) (s : State) : Result := finish none { s with dt := byteOperand (s.reg rx) }

/-- SetSound (R188). -/
def execSetSound (rx : Reg) (s : State) : Result := finish none { s with st := byteOperand (s.reg rx) }

/-- RndAnd (R190): one generator step, and the low byte of its output masked. -/
def execRndAnd (rx : Reg) (imm : Byte) (s : State) : Result :=
  let r := rngGenerate s.rng
  finish none ({ s with rng := r.2 }.setReg rx (r.1.setWidth 8 &&& imm))

end Sys2Proof.Machine
end

