-- ==== Sys2Proof/Machine/Draw.lean ====
section
/-! DEFINITION. The display family (43_display): Cls and DrawSprite. -/

namespace Sys2Proof.Machine

/-- Cls (R166). -/
def execCls (s : State) : Result := finish none { s with fb := displayClear Config.clearColor }

/-- DrawSprite (R167): with `n = 0` nothing is read, so nothing can fault, and the flag becomes 0. -/
def execDrawSprite (rx ry : Reg) (n : Nibble) (s : State) : Result :=
  if n.toNat = 0 ∨ s.inRange n.toNat = true then
    let drawn := blitSprite s.invertY s.fb (s.reg rx).toNat (s.reg ry).toNat (s.loadBytes n.toNat)
    finish none ({ s with fb := drawn.1 }.setFlag (collisionFlag drawn.2))
  else raiseFault .memoryError s

end Sys2Proof.Machine
end

