-- ==== Sys2Proof/Machine/Index.lean ====
section
/-! DEFINITION. The index register and memory family (42_index_memory). No memory instruction changes `I` (R145). -/

namespace Sys2Proof.Machine

/-- LoadA (R147). -/
def execLoadA (addr : Addr) (s : State) : Result := finish none { s with i := addrOperand addr }

/-- AddIndex (R148): the sum wraps at 16 bits, no flag. -/
def execAddIndex (rx : Reg) (s : State) : Result := finish none { s with i := s.i + byteOperand (s.reg rx) }

/-- SpriteLoc (R150): the whole byte is tested. -/
def execSpriteLoc (rx : Reg) (s : State) : Result :=
  if 16 ≤ (s.reg rx).toNat then raiseFault .invalidSprite s
  else finish none { s with i := BitVec.ofNat 16 (Config.glyphBytes * (s.reg rx).toNat) }

/-- StoreBCD (R151). -/
def execStoreBCD (rx : Reg) (s : State) : Result := storeAtIndex (bcdDigits (s.reg rx)) s

/-- StoreRegs (R152). -/
def execStoreRegs (rx : Reg) (s : State) : Result := storeAtIndex (s.regBlock rx) s

/-- LoadRegs (R153). -/
def execLoadRegs (rx : Reg) (s : State) : Result :=
  if s.inRange (rx.val + 1) then finish none { s with v := loadBlock s.v 0 (s.loadBytes (rx.val + 1)) }
  else raiseFault .memoryError s

end Sys2Proof.Machine
end

