-- ==== Sys2Proof/Machine/Dispatch.lean ====
section
/-! DEFINITION. `Execute` (R204): one arm per instruction and no default arm. -/

namespace Sys2Proof.Machine

def exec (i : Instr) (s : State) : Host.Outcome State Fault Refusal :=
  match i with
  | .cls => Sys2Proof.Machine.execCls s
  | .ret => Sys2Proof.Machine.execRet s
  | .jump addr => Sys2Proof.Machine.execJump addr s
  | .call addr => Sys2Proof.Machine.execCall addr s
  | .skipEqI rx imm => Sys2Proof.Machine.execSkipEqI rx imm s
  | .skipNeqI rx imm => Sys2Proof.Machine.execSkipNeqI rx imm s
  | .skipEq rx ry => Sys2Proof.Machine.execSkipEq rx ry s
  | .loadI rx imm => Sys2Proof.Machine.execLoadI rx imm s
  | .addI rx imm => Sys2Proof.Machine.execAddI rx imm s
  | .move rx ry => Sys2Proof.Machine.execMove rx ry s
  | .or rx ry => Sys2Proof.Machine.execOr rx ry s
  | .and rx ry => Sys2Proof.Machine.execAnd rx ry s
  | .xor rx ry => Sys2Proof.Machine.execXor rx ry s
  | .add rx ry => Sys2Proof.Machine.execAdd rx ry s
  | .sub rx ry => Sys2Proof.Machine.execSub rx ry s
  | .shr rx ry => Sys2Proof.Machine.execShr rx ry s
  | .subN rx ry => Sys2Proof.Machine.execSubN rx ry s
  | .shl rx ry => Sys2Proof.Machine.execShl rx ry s
  | .skipNeq rx ry => Sys2Proof.Machine.execSkipNeq rx ry s
  | .loadA addr => Sys2Proof.Machine.execLoadA addr s
  | .jumpV0 addr => Sys2Proof.Machine.execJumpV0 addr s
  | .rndAnd rx imm => Sys2Proof.Machine.execRndAnd rx imm s
  | .drawSprite rx ry n => Sys2Proof.Machine.execDrawSprite rx ry n s
  | .skipKeyPressed rx => Sys2Proof.Machine.execSkipKeyPressed rx s
  | .skipKeyNPressed rx => Sys2Proof.Machine.execSkipKeyNPressed rx s
  | .getDelay rx => Sys2Proof.Machine.execGetDelay rx s
  | .waitForKey rx => Sys2Proof.Machine.execWaitForKey rx s
  | .setDelay rx => Sys2Proof.Machine.execSetDelay rx s
  | .setSound rx => Sys2Proof.Machine.execSetSound rx s
  | .addIndex rx => Sys2Proof.Machine.execAddIndex rx s
  | .spriteLoc rx => Sys2Proof.Machine.execSpriteLoc rx s
  | .storeBCD rx => Sys2Proof.Machine.execStoreBCD rx s
  | .storeRegs rx => Sys2Proof.Machine.execStoreRegs rx s
  | .loadRegs rx => Sys2Proof.Machine.execLoadRegs rx s

end Sys2Proof.Machine
end

