-- ==== Sys2Proof/Machine/Tick.lean ====
section
/-! DEFINITION. The Cpu's step `Tick` (R200 to R208), and the turn of `advance_ms`'s loop made of it (R238). -/

namespace Sys2Proof.Machine

/-- The fetch of `Tick`: the bounds check (R201), then the big-endian word at `pc` (R63). -/
def fetchWord (s : State) : Except Fault Half :=
  if 4095 ≤ s.pc.toNat then .error .memoryError else .ok (s.mem.readWord s.pc.toNat)

/-- Fetch and decode (R200, R202). -/
def fetchInstr (s : State) : Except Fault Instr :=
  match fetchWord s with
  | .error f => .error f
  | .ok w =>
    match decode w with
    | some i => .ok i
    | none => .error .invalidInstruction

/-- `Tick()` (R200). In `Halted` it changes nothing (R207); `WaitingForKey` does not gate it (R206). -/
def tick (s : State) : Result :=
  if s.status = .halted then .next s
  else
    match fetchInstr s.countCycle with
    | .error f => raiseFault f s.countCycle
    | .ok i => exec i s.countCycle

/-- One turn of the loop of `advance_ms` (R238): a Tick, and its divider step when it did not fault. -/
def tickAndDivide (s : State) : Result :=
  match tick s with
  | .next t => .next (dividerStep t)
  | .fault f => .fault f
  | .refused r => .refused r

/-- The state with the bytes of the word `w` (bits above `nbits` zero) where the next Tick fetches, and running: the host's
`load_rom` and `resume` made local to one instruction (log 12). -/
def placeWord (s : State) (nbits w : Nat) : State :=
  if 4095 ≤ s.pc.toNat then s
  else
    { s with
      mem := s.mem.writeBlock s.pc.toNat
        [(BitVec.ofNat 16 (w % 2 ^ nbits)).extractLsb' 8 8, (BitVec.ofNat 16 (w % 2 ^ nbits)).extractLsb' 0 8]
      status := if s.status = .halted then .running else s.status }

end Sys2Proof.Machine
end

