-- ==== Sys2Proof/Machine/Step.lean ====
section
/-! DEFINITION. The machine's step: one turn of the loop of `advance_ms` (R238). -/

namespace Sys2Proof.Machine

/-- One step: a Tick (R200) and, when it did not fault, its divider step (R237, R238; log 6). -/
def step (s : State) : Host.Outcome State Fault Refusal := tickAndDivide s

/-- `s` with an instruction, numbered as spec/opcode_table.json numbers it, where `step` fetches next. -/
def State.withFetchWord (s : State) (nbits w : Nat) : State := placeWord s nbits w

end Sys2Proof.Machine
end

