-- ==== Sys2Proof/WellFormed.lean ====
section
/-! DEFINITION. The checks of R100 on an instruction's operands, of R260 on the parameters of `new`, and of R262 on a
ROM image. -/

namespace Sys2Proof

/-- R100: register indices below 16. -/
def regInRange (k : Nat) : Bool := decide (k < 16)

/-- R100: `addr` below 4096. -/
def addrInRange (a : Nat) : Bool := decide (a < 4096)

/-- R100: `imm` below 256. -/
def immInRange (v : Nat) : Bool := decide (v < 256)

/-- R100: `n` below 16. -/
def rowsInRange (n : Nat) : Bool := decide (n < 16)

/-- A well-formed `Instruction` (R100). The operand types of `Instr` already carry these bounds, so the check accepts
every value of the type (`Instr.wellFormed_all` in Laws/Encoding); the bounds are spelled out here for a reader. -/
def Instr.wellFormed : Instr → Bool
  | .cls => true
  | .ret => true
  | .jump addr => addrInRange addr.toNat
  | .call addr => addrInRange addr.toNat
  | .skipEqI rx imm => regInRange rx.val && immInRange imm.toNat
  | .skipNeqI rx imm => regInRange rx.val && immInRange imm.toNat
  | .skipEq rx ry => regInRange rx.val && regInRange ry.val
  | .loadI rx imm => regInRange rx.val && immInRange imm.toNat
  | .addI rx imm => regInRange rx.val && immInRange imm.toNat
  | .move rx ry => regInRange rx.val && regInRange ry.val
  | .or rx ry => regInRange rx.val && regInRange ry.val
  | .and rx ry => regInRange rx.val && regInRange ry.val
  | .xor rx ry => regInRange rx.val && regInRange ry.val
  | .add rx ry => regInRange rx.val && regInRange ry.val
  | .sub rx ry => regInRange rx.val && regInRange ry.val
  | .shr rx ry => regInRange rx.val && regInRange ry.val
  | .subN rx ry => regInRange rx.val && regInRange ry.val
  | .shl rx ry => regInRange rx.val && regInRange ry.val
  | .skipNeq rx ry => regInRange rx.val && regInRange ry.val
  | .loadA addr => addrInRange addr.toNat
  | .jumpV0 addr => addrInRange addr.toNat
  | .rndAnd rx imm => regInRange rx.val && immInRange imm.toNat
  | .drawSprite rx ry n => regInRange rx.val && regInRange ry.val && rowsInRange n.toNat
  | .skipKeyPressed rx => regInRange rx.val
  | .skipKeyNPressed rx => regInRange rx.val
  | .getDelay rx => regInRange rx.val
  | .waitForKey rx => regInRange rx.val
  | .setDelay rx => regInRange rx.val
  | .setSound rx => regInRange rx.val
  | .addIndex rx => regInRange rx.val
  | .spriteLoc rx => regInRange rx.val
  | .storeBCD rx => regInRange rx.val
  | .storeRegs rx => regInRange rx.val
  | .loadRegs rx => regInRange rx.val

/-- The precondition of `new` (R260, D24): a rate of at least 60 Hz. -/
def Params.wellFormed (p : Params) : Bool := decide (Config.peripheralHz ≤ p.cpuHz.toNat)

/-- The size check of `load_rom` (R262): at most 3584 bytes. -/
def romFits (bytes : List Byte) : Bool := decide (bytes.length ≤ Config.romMax)

end Sys2Proof
end

