-- ==== Sys2Proof/Machine/HostOps.lean ====
section
/-! DEFINITION. The host interface (60_exceptions section 8, 70_reset_and_hazards sections 1 and 2): each operation of R240
as a function on the state, and the host's sequence of operations as an input. -/

namespace Sys2Proof.Machine

/-- What a host operation returns (R240, R245). -/
inductive HostReply where
  | ok
  /-- `advance_ms` stopped at this fault (R221). -/
  | fault (f : Fault)
  /-- `advance_ms` met an instruction without a meaning; there is none, so nothing returns it (log 13). -/
  | refused (r : Refusal)
  /-- `load_rom` of more than 3584 bytes (R262). -/
  | romTooLarge
  /-- `set_cpu_hz` below 60 (R241). -/
  | rejected
  /-- The framebuffer view (R246). -/
  | pixels (view : List Word)
  /-- The framebuffer's dimensions (R246). -/
  | dims (w h : Nat)
  /-- A timer's value (R247). -/
  | timer (value : Half)
  deriving DecidableEq, Repr

/-- The numeric code of a fault (R216, D29). -/
def faultCode : Fault → Nat
  | .invalidInstruction => 1
  | .memoryError => 2
  | .popEmptyStack => 3
  | .stackOverflow => 4
  | .invalidSprite => 5
  | .notImplemented => 6

/-- `new(cpu_hz)` (R260): refused below 60 Hz (D24). -/
def construct (p : Params) : Option State := if p.wellFormed then some (State.new p) else none

/-- `load_rom(bytes)` (R262): all of the image, or nothing. -/
def loadRom (bytes : List Byte) (s : State) : State × HostReply :=
  if romFits bytes then ({ s with mem := s.mem.writeBlock Config.romBase bytes }, .ok) else (s, .romTooLarge)

/-- A reset from the host (R261): a new instance, and the ROM loaded again. -/
def hostReset (p : Params) (bytes : List Byte) : Option (State × HostReply) :=
  (construct p).map (loadRom bytes)

/-- The number of Ticks of `advance_ms(elapsed_ms)` (R230): exact product, remainder dropped. -/
def cpuSteps (cpuHz elapsed : Word) : Nat := cpuHz.toNat * elapsed.toNat / 1000

/-- The loop of `advance_ms` (R238): it stops at the first fault, with the faulting Tick counted and nothing else changed. -/
def advanceLoop : Nat → State → State × HostReply
  | 0, s => (s, .ok)
  | n + 1, s =>
    match step s with
    | .next t => advanceLoop n t
    | .fault f => (s.afterFault, .fault f)
    | .refused r => (s, .refused r)

/-- `advance_ms(elapsed_ms)` (R238), with `cpu_hz` as it is at the call. -/
def advanceMs (elapsed : Word) (s : State) : State × HostReply := advanceLoop (cpuSteps s.cpuHz elapsed) s

/-- `key_down(code)` (R243, R175); the port is four bits wide (D15). -/
def keyDown (k : Nibble) (s : State) : State := { s with keys := s.keys ||| (1#16 <<< k.toNat) }

/-- `key_up(code)` (R243, R175). -/
def keyUp (k : Nibble) (s : State) : State := { s with keys := s.keys &&& ~~~(1#16 <<< k.toNat) }

/-- `set_cpu_hz(hz)` (R241): nothing but `cpu_hz` changes, and nothing when rejected. -/
def setCpuHz (hz : Word) (s : State) : State × HostReply :=
  if hz.toNat < Config.peripheralHz then (s, .rejected) else ({ s with cpuHz := hz }, .ok)

/-- `framebuffer()` (R246): the 2048 pixels in offset order. -/
def framebufferView (s : State) : List Word := (List.range Config.pixels).map s.fb.get

/-- The audio-enable condition (R247, D33). -/
def soundOn (s : State) : Bool := decide (s.st ≠ 0#16)

/-- `halt()`, the optional host operation of R207. -/
def haltCpu (s : State) : State := { s with status := .halted }

/-- `resume()`, the optional host operation of R207. -/
def resumeCpu (s : State) : State := { s with status := .running }

/-- The operations on an instance (R240; `halt` and `resume` are R207's optional pair, log 11). -/
inductive HostOp where
  | loadRom (bytes : List Byte)
  | advanceMs (elapsed : Word)
  | keyDown (k : Nibble)
  | keyUp (k : Nibble)
  | setCpuHz (hz : Word)
  | framebuffer
  | framebufferDims
  | readSound
  | readDelay
  | halt
  | resume
  deriving DecidableEq, Repr

/-- One host operation: the state after it and what it returns (R240). -/
def applyHostOp (op : HostOp) (s : State) : State × HostReply :=
  match op with
  | .loadRom bytes => loadRom bytes s
  | .advanceMs elapsed => advanceMs elapsed s
  | .keyDown k => (keyDown k s, .ok)
  | .keyUp k => (keyUp k s, .ok)
  | .setCpuHz hz => setCpuHz hz s
  | .framebuffer => (s, .pixels (framebufferView s))
  | .framebufferDims => (s, .dims Config.width Config.height)
  | .readSound => (s, .timer s.st)
  | .readDelay => (s, .timer s.dt)
  | .halt => (haltCpu s, .ok)
  | .resume => (resumeCpu s, .ok)

/-- The host's sequence of operations (R5, R239): each runs to completion before the next. -/
def runHost : List HostOp → State → State × List HostReply
  | [], s => (s, [])
  | op :: rest, s =>
    let r := applyHostOp op s
    let q := runHost rest r.1
    (q.1, r.2 :: q.2)

end Sys2Proof.Machine
end

