-- ==== Sys2Proof/Safety.lean ====
section
/-! DEFINITION. What claims are stated in: the invariant of R42, the states a host can reach, what each instruction may
write (R21, R23, R43), and safe runs. -/

namespace Sys2Proof.Machine

/-- The invariants of R42, with the canonical forms of memory and framebuffer, and the bound on the stack's entries that
the bound on `pc` rests on. -/
structure State.Inv (s : State) : Prop where
  mem_wf : s.mem.wf = true
  fb_wf : s.fb.wf = true
  /-- R32, R168: a pixel is dark or lit. -/
  pixel : ∀ o, s.fb.get o = 0x00000000#32 ∨ s.fb.get o = 0xFFFFFFFF#32
  /-- R36. -/
  dt_le : s.dt.toNat ≤ 255
  /-- R36. -/
  st_le : s.st.toNat ≤ 255
  /-- R29. -/
  inc_odd : s.rng.inc.getLsbD 0 = true
  /-- R37. -/
  rate : 60 ≤ s.cpuHz.toNat
  /-- R22, R42. -/
  pc_lt : s.pc.toNat < 4351
  /-- R112: the pushed address is at most 4096. -/
  stack_le : ∀ k : Fin 16, (s.stack[k.val]).toNat ≤ 4096

/-- R38: the accumulator is below the rate between ticks, as long as the rate is not lowered. -/
def State.Divided (s : State) : Prop := 60 ≤ s.cpuHz.toNat ∧ s.acc.toNat < s.cpuHz.toNat

/-- The states a host can bring an instance to (R240, R260). -/
inductive Reachable : State → Prop where
  | new (p : Params) (h : p.wellFormed = true) : Reachable (State.new p)
  | host (op : HostOp) (s : State) (h : Reachable s) : Reachable (applyHostOp op s).1

/-- `k` steps from `s` end in `t` without a fault. -/
def Runs : Nat → State → State → Prop
  | 0, s, t => s = t
  | k + 1, s, t => ∃ u, step s = .next u ∧ Runs k u t

/-- How many of the first `k` divider steps from `s` fire a peripheral tick (R233): each is tested in the state that its Tick
leaves, and the count ends with the run at a Tick that does not answer a next state. -/
def ticksFired : Nat → State → Nat
  | 0, _ => 0
  | k + 1, s =>
    match tick s with
    | .next u => (if u.dividerFires then 1 else 0) + ticksFired k (dividerStep u)
    | .fault _ => 0
    | .refused _ => 0

/-- A safe run of `k` steps: no fault and no refusal. -/
def SafeFor (k : Nat) (s : State) : Prop := ∃ t, Runs k s t

/-- The word is the instruction's, both ways (R93, R100). -/
def Encodes (w : Half) (i : Instr) : Prop := decode w = some i ∧ encode i = w

/-- The general registers an instruction may write: its destination, `V[15]` where R21 names a flag, the block of LoadRegs. -/
def destRegs : Instr → List Reg
  | .loadI rx _ => [rx]
  | .addI rx _ => [rx]
  | .move rx _ => [rx]
  | .or rx _ => [rx]
  | .and rx _ => [rx]
  | .xor rx _ => [rx]
  | .add rx _ => [rx, 15]
  | .sub rx _ => [rx, 15]
  | .shr rx _ => [rx, 15]
  | .subN rx _ => [rx, 15]
  | .shl rx _ => [rx, 15]
  | .rndAnd rx _ => [rx]
  | .drawSprite _ _ _ => [15]
  | .getDelay rx => [rx]
  | .waitForKey rx => [rx]
  | .loadRegs rx => (List.finRange 16).filter fun r => decide (r ≤ rx)
  | .cls => []
  | .ret => []
  | .jump _ => []
  | .call _ => []
  | .skipEqI _ _ => []
  | .skipNeqI _ _ => []
  | .skipEq _ _ => []
  | .skipNeq _ _ => []
  | .loadA _ => []
  | .jumpV0 _ => []
  | .skipKeyPressed _ => []
  | .skipKeyNPressed _ => []
  | .setDelay _ => []
  | .setSound _ => []
  | .addIndex _ => []
  | .spriteLoc _ => []
  | .storeBCD _ => []
  | .storeRegs _ => []

/-- How many bytes from `I` up an instruction stores (R63): StoreBCD 3, StoreRegs `rx + 1`, every other none. -/
def storedBytes : Instr → Nat
  | .storeBCD _ => 3
  | .storeRegs rx => rx.val + 1
  | .cls => 0
  | .ret => 0
  | .jump _ => 0
  | .call _ => 0
  | .skipEqI _ _ => 0
  | .skipNeqI _ _ => 0
  | .skipEq _ _ => 0
  | .loadI _ _ => 0
  | .addI _ _ => 0
  | .move _ _ => 0
  | .or _ _ => 0
  | .and _ _ => 0
  | .xor _ _ => 0
  | .add _ _ => 0
  | .sub _ _ => 0
  | .shr _ _ => 0
  | .subN _ _ => 0
  | .shl _ _ => 0
  | .skipNeq _ _ => 0
  | .loadA _ => 0
  | .jumpV0 _ => 0
  | .rndAnd _ _ => 0
  | .drawSprite _ _ _ => 0
  | .skipKeyPressed _ => 0
  | .skipKeyNPressed _ => 0
  | .getDelay _ => 0
  | .waitForKey _ => 0
  | .setDelay _ => 0
  | .setSound _ => 0
  | .addIndex _ => 0
  | .spriteLoc _ => 0
  | .loadRegs _ => 0

/-- Whether the instruction is one of those that write `I` (R24). -/
def writesIndex : Instr → Bool
  | .loadA _ => true
  | .addIndex _ => true
  | .spriteLoc _ => true
  | _ => false

/-- Whether the instruction uses the call stack (R25). -/
def usesStack : Instr → Bool
  | .call _ => true
  | .ret => true
  | _ => false

/-- Whether the instruction writes the framebuffer (R32). -/
def writesDisplay : Instr → Bool
  | .cls => true
  | .drawSprite _ _ _ => true
  | _ => false

/-! Instruction words by place value, for the formats of R86: independent of `encode`. -/

/-- Format `A`. -/
def wordA (op : Nat) (addr : Addr) : Half := BitVec.ofNat 16 (op * 4096 + addr.toNat)
/-- Formats `XI` and `X`. -/
def wordX (op : Nat) (rx : Reg) (low : Byte) : Half := BitVec.ofNat 16 (op * 4096 + rx.val * 256 + low.toNat)
/-- Formats `XY` and `XYN`. -/
def wordXY (op : Nat) (rx ry : Reg) (low : Nibble) : Half :=
  BitVec.ofNat 16 (op * 4096 + rx.val * 256 + ry.val * 16 + low.toNat)

/-- The operand bits of a word, absent fields 0 (R100): `addr`, or `(rx << 8) | imm`, or `(rx << 8) | (ry << 4) | n`. -/
def operandBits : Instr → Half
  | .cls | .ret => 0#16
  | .jump addr | .call addr | .loadA addr | .jumpV0 addr => BitVec.ofNat 16 addr.toNat
  | .skipEqI rx imm | .skipNeqI rx imm | .loadI rx imm | .addI rx imm | .rndAnd rx imm =>
    (BitVec.ofNat 16 rx.val <<< 8) ||| BitVec.ofNat 16 imm.toNat
  | .skipEq rx ry | .skipNeq rx ry | .move rx ry | .or rx ry | .and rx ry | .xor rx ry | .add rx ry | .sub rx ry
  | .shr rx ry | .subN rx ry | .shl rx ry => (BitVec.ofNat 16 rx.val <<< 8) ||| (BitVec.ofNat 16 ry.val <<< 4)
  | .drawSprite rx ry n =>
    (BitVec.ofNat 16 rx.val <<< 8) ||| (BitVec.ofNat 16 ry.val <<< 4) ||| BitVec.ofNat 16 n.toNat
  | .skipKeyPressed rx | .skipKeyNPressed rx | .getDelay rx | .waitForKey rx | .setDelay rx | .setSound rx
  | .addIndex rx | .spriteLoc rx | .storeBCD rx | .storeRegs rx | .loadRegs rx => BitVec.ofNat 16 rx.val <<< 8

/-- The key an instruction tests is held (R177): the key mask's bit numbered by the low four bits of `V[rx]`. -/
def keyHeld (s : State) (rx : Reg) : Bool := s.keys.getLsbD ((s.reg rx).toNat % 16)

/-- The new `pc` of an instruction that does not fault, row by row the table of R23. -/
def nextPcOf (i : Instr) (s : State) : Half :=
  let skip (c : Bool) : Half := if c then s.pc + 4#16 else s.pc + 2#16
  match i with
  | .skipEqI rx imm => skip (decide (s.reg rx = imm))
  | .skipNeqI rx imm => skip (decide (s.reg rx ≠ imm))
  | .skipEq rx ry => skip (decide (s.reg rx = s.reg ry))
  | .skipNeq rx ry => skip (decide (s.reg rx ≠ s.reg ry))
  | .skipKeyPressed rx => skip (keyHeld s rx)
  | .skipKeyNPressed rx => skip (!keyHeld s rx)
  | .jump addr | .call addr => BitVec.ofNat 16 addr.toNat
  | .jumpV0 addr => BitVec.ofNat 16 ((s.reg 0).toNat + addr.toNat)
  | .ret => s.stack.toList.getD (s.sp.val - 1) 0#16
  | .waitForKey _ => if s.keys = 0#16 then s.pc else s.pc + 2#16
  | .cls | .loadI _ _ | .addI _ _ | .move _ _ | .or _ _ | .and _ _ | .xor _ _ | .add _ _ | .sub _ _ | .shr _ _ | .subN _ _
  | .shl _ _ | .loadA _ | .rndAnd _ _ | .drawSprite _ _ _ | .getDelay _ | .setDelay _ | .setSound _ | .addIndex _
  | .spriteLoc _ | .storeBCD _ | .storeRegs _ | .loadRegs _ => s.pc + 2#16

/-- Register-only effect with a normal advance: the registers `rs` and `pc` may differ, `pc` is two further, and every byte
of memory reads as before. -/
structure RegistersOnly (rs : List Reg) (s t : State) : Prop where
  rest : t = { s with v := t.v, pc := s.pc + 2#16 }
  regs : ∀ r, r ∉ rs → t.reg r = s.reg r
  bytes : ∀ a, t.readByte a = s.readByte a

/-- Bit `x, y` of the sprite `rows` drawn at `(x0, y0)` (R167): some row `dy` and column `dx` land there with a 1 bit. -/
def spriteCovers (rows : List Byte) (x0 y0 x y : Nat) : Prop :=
  ∃ dy dx : Nat, dy < rows.length ∧ dx < 8 ∧ (x0 + dx) % 64 = x ∧ (y0 + dy) % 32 = y ∧
    (rows.getD dy 0#8).getLsbD (7 - dx) = true

/-- The logical pixel `(x, y)` (R160). -/
def State.pixelAt (s : State) (x y : Nat) : Word := s.fb.get (displayOffset s.invertY x y)

end Sys2Proof.Machine
end

