-- ==== Sys2Proof/Certificates/Slice0/Obligations.lean ====
section
/-! DEFINITION. The statements for the provers, from the numbered rules of spec/. -/

open Sys2Proof Sys2Proof.Machine

/-! ## Encoding (30_encoding) -/

/-- R100: decode and encode are inverse, and the word is `match` with the operand bits. The operand types carry R100's
bounds, so `wellFormed` holds of every instruction. -/
def Obligations.WordRoundTrip : Prop :=
  (∀ i : Instr, i.wellFormed = true → decode (encode i) = some i) ∧
  (∀ (w : Half) (i : Instr), decode w = some i → encode i = w) ∧
  (∀ i : Instr, i.wellFormed = true → encode i = (rowOf i).matchBits ||| operandBits i)

/-- R93: a word is a row's instruction exactly when `w & mask = match`; the 34 rows are disjoint; a word of no row decodes to
`none`. The rows' bindings rest on the spec's decisions D3 and D4. -/
def Obligations.TableDecidesDecoding : Prop :=
  opcodeTable.length = 34 ∧
  (∀ (w : Half) (i : Instr), decode w = some i → rowOf i ∈ opcodeTable ∧ (rowOf i).accepts w = true) ∧
  (∀ (w : Half) (r : OpcodeRow), r ∈ opcodeTable → r.accepts w = true → ∃ i, decode w = some i ∧ rowOf i = r) ∧
  (∀ w : Half, (∀ r ∈ opcodeTable, r.accepts w = false) → decode w = none) ∧
  (∀ (w : Half) (r q : OpcodeRow), r ∈ opcodeTable → q ∈ opcodeTable → r.accepts w = true → q.accepts w = true → r = q)

/-- The table of illegal words of R96, group by group, by the word's hexadecimal digits. -/
def Obligations.IllegalWordsByGroup : Prop :=
  ∀ w : Half, decode w = none ↔
    (w.toNat / 4096 = 0 ∧ w.toNat ≠ 0x00E0 ∧ w.toNat ≠ 0x00EE) ∨
    (w.toNat / 4096 = 5 ∧ w.toNat % 16 ≠ 0) ∨
    (w.toNat / 4096 = 8 ∧ w.toNat % 16 ∈ [8, 9, 0xA, 0xB, 0xC, 0xD, 0xF]) ∨
    (w.toNat / 4096 = 9 ∧ w.toNat % 16 ≠ 0) ∨
    (w.toNat / 4096 = 0xE ∧ w.toNat % 256 ∉ [0x9E, 0xA1]) ∨
    (w.toNat / 4096 = 0xF ∧ w.toNat % 256 ∉ [0x07, 0x0A, 0x15, 0x18, 0x1E, 0x29, 0x33, 0x55, 0x65])

/-- R101: the six literal cases. -/
def Obligations.SourceDecodeExamples : Prop :=
  decode 0x00E0#16 = some .cls ∧ decode 0x1234#16 = some (.jump 0x234#12) ∧ decode 0x8014#16 = some (.add 0 1) ∧
  decode 0xF055#16 = some (.storeRegs 0) ∧ decode 0x5001#16 = none ∧ decode 0x8018#16 = none

/-! ## The step (45_cpu_tick) -/

/-- A step runs the decoded instruction: the two bytes at `pc` read big-endian (R63), the cycle counted first (R200), `exec`
of the instruction, and on a next state the divider step (R238). -/
def Obligations.StepRunsDecoded : Prop :=
  ∀ (s : State) (i : Instr), s.status ≠ .halted → s.pc.toNat < 4095 →
    decode (BitVec.ofNat 16 ((s.readByte s.pc.toNat).toNat * 256 + (s.readByte (s.pc.toNat + 1)).toNat)) = some i →
    i.wellFormed = true →
    (∀ t, exec i { s with cycles := s.cycles + 1#64 } = .next t → step s = .next (dividerStep t)) ∧
    (∀ f, exec i { s with cycles := s.cycles + 1#64 } = .fault f → step s = .fault f)

/-- R202: a word that does not decode faults; nothing but `cycles` has changed and `pc` still addresses the word, for
every number of Ticks still scheduled. -/
def Obligations.IllegalWordFaults : Prop :=
  ∀ (s : State) (n : Nat), s.status ≠ .halted → s.pc.toNat < 4095 → decode (s.mem.readWord s.pc.toNat) = none →
    step s = .fault .invalidInstruction ∧
    advanceLoop (n + 1) s = ({ s with cycles := s.cycles + 1#64 }, .fault .invalidInstruction)

/-- 45_cpu_tick section 1 and decision D9: a `pc` of 4095 or more faults before anything is fetched, with `pc` kept. -/
def Obligations.FetchOutsideMemoryFaults : Prop :=
  ∀ (s : State) (n : Nat), s.status ≠ .halted → 4095 ≤ s.pc.toNat →
    step s = .fault .memoryError ∧
    advanceLoop (n + 1) s = ({ s with cycles := s.cycles + 1#64 }, .fault .memoryError)

/-- Decision D27: in Halted a Tick answers a next state and changes nothing, `cycles` included, and the divider still steps;
`halt` and `resume` set the status and nothing else. -/
def Obligations.HaltedTickChangesNothing : Prop :=
  (∀ s : State, s.status = .halted → tick s = .next s ∧ step s = .next (dividerStep s)) ∧
  (∀ s : State, (applyHostOp .halt s).1 = { s with status := .halted } ∧
    (applyHostOp .resume s).1 = { s with status := .running })

/-- 45_cpu_tick section 3: a faulting step changes exactly `cycles`, drops what is still scheduled, and faults again in the
same way when it is tried again. -/
def Obligations.FaultChangesOnlyCycles : Prop :=
  ∀ (s : State) (f : Fault), step s = .fault f →
    (∀ n, advanceLoop (n + 1) s = ({ s with cycles := s.cycles + 1#64 }, .fault f)) ∧
    step { s with cycles := s.cycles + 1#64 } = .fault f

/-- The execute faults, each with its cause: nothing else in execute faults (60_exceptions section 1). The data faults rest
on decision D11. -/
def Obligations.ExecuteFaultCauses : Prop :=
  ∀ (i : Instr) (s : State) (f : Fault), exec i s = .fault f ↔
    ((∃ a, i = .call a) ∧ s.sp.val = 16 ∧ f = .stackOverflow) ∨
    (i = .ret ∧ s.sp.val = 0 ∧ f = .popEmptyStack) ∨
    (∃ rx, i = .spriteLoc rx ∧ 16 ≤ (s.reg rx).toNat ∧ f = .invalidSprite) ∨
    (∃ rx, i = .storeBCD rx ∧ 4095 < s.i.toNat + 2 ∧ f = .memoryError) ∨
    (∃ rx, i = .storeRegs rx ∧ 4095 < s.i.toNat + rx.val ∧ f = .memoryError) ∨
    (∃ rx, i = .loadRegs rx ∧ 4095 < s.i.toNat + rx.val ∧ f = .memoryError) ∨
    (∃ rx ry n, i = .drawSprite rx ry n ∧ n ≠ 0#4 ∧ 4096 < s.i.toNat + n.toNat ∧ f = .memoryError)

/-- 60_exceptions section 1: `NotImplemented` is raised by nothing; and no step refuses. -/
def Obligations.NoUnusedFaultNoRefusal : Prop :=
  ∀ s : State, step s ≠ .fault .notImplemented ∧ ∀ r, step s ≠ .refused r

/-- The new `pc` of every instruction that does not fault, row by row the table of 10_state section 1, with the conditions
of the skips from the instructions' own rules: that of SkipNeq is the spec's inference from its name, and the key the two key
skips test is numbered by the register's low four bits (decision D14, log 14). -/
def Obligations.ProgramCounterTable : Prop :=
  ∀ (i : Instr) (s t : State), exec i s = .next t → t.pc = nextPcOf i s

/-! ## Control transfer (40_control_transfer) -/

/-- R111. -/
def Obligations.JumpSetsPc : Prop :=
  ∀ (addr : Addr) (s : State),
    Encodes (wordA 1 addr) (.jump addr) ∧ exec (.jump addr) s = .next { s with pc := BitVec.ofNat 16 addr.toNat }

/-- R112: below depth 16 the address after the Call is pushed; at depth 16 the Call faults. -/
def Obligations.CallPushesReturn : Prop :=
  ∀ (addr : Addr) (s : State),
    Encodes (wordA 2 addr) (.call addr) ∧
    (s.sp.val < 16 → ∃ t, exec (.call addr) s = .next t ∧
      t = { s with pc := BitVec.ofNat 16 addr.toNat, sp := t.sp, stack := t.stack } ∧
      t.sp.val = s.sp.val + 1 ∧ t.stack[s.sp.val]? = some (s.pc + 2#16) ∧
      ∀ k : Fin 16, k.val ≠ s.sp.val → t.stack[k.val] = s.stack[k.val]) ∧
    (s.sp.val = 16 → exec (.call addr) s = .fault .stackOverflow)

/-- Ret: with a live entry the popped address is the new `pc` as it is (an inference the spec marks as its own), and the entry
stays; with none it faults. -/
def Obligations.RetPopsReturn : Prop :=
  Encodes 0x00EE#16 .ret ∧
  (∀ (s : State) (k : Fin 16), s.sp.val = k.val + 1 →
    exec .ret s = .next { s with pc := s.stack[k.val], sp := k.castSucc }) ∧
  (∀ s : State, s.sp.val = 0 → exec .ret s = .fault .popEmptyStack)

/-- A Ret after a Call resumes behind the Call and gives the stack pointer back, whatever ran between left both alone. -/
def Obligations.RetResumesAfterCall : Prop :=
  ∀ (addr : Addr) (s t u : State), exec (.call addr) s = .next t → u.stack = t.stack → u.sp = t.sp →
    ∃ w, exec .ret u = .next w ∧ w.pc = s.pc + 2#16 ∧ w.sp = s.sp

/-- JumpV0: the exact sum, not reduced modulo 4096 (an inference the spec marks as its own). -/
def Obligations.JumpV0AddsV0 : Prop :=
  ∀ (addr : Addr) (s : State),
    Encodes (wordA 0xB addr) (.jumpV0 addr) ∧
    ∃ t, exec (.jumpV0 addr) s = .next t ∧ t = { s with pc := t.pc } ∧ t.pc.toNat = (s.reg 0).toNat + addr.toNat

/-- R110, R115, R116, R117: `pc + 4` on a true condition, `pc + 2` otherwise, and nothing else. -/
def Obligations.CompareSkips : Prop :=
  (∀ (rx : Reg) (imm : Byte) (s : State),
    Encodes (wordX 3 rx imm) (.skipEqI rx imm) ∧ Encodes (wordX 4 rx imm) (.skipNeqI rx imm) ∧
    exec (.skipEqI rx imm) s = .next { s with pc := if s.reg rx = imm then s.pc + 4#16 else s.pc + 2#16 } ∧
    exec (.skipNeqI rx imm) s = .next { s with pc := if s.reg rx ≠ imm then s.pc + 4#16 else s.pc + 2#16 }) ∧
  (∀ (rx ry : Reg) (s : State),
    Encodes (wordXY 5 rx ry 0#4) (.skipEq rx ry) ∧
    exec (.skipEq rx ry) s = .next { s with pc := if s.reg rx = s.reg ry then s.pc + 4#16 else s.pc + 2#16 })

/-- SkipNeq and the two key skips: their meaning is the spec's inference from their names, and the key tested is the one
numbered by the register's low four bits (decision D14; the bytes 0x9E and 0xA1 are bound by decision D4). -/
def Obligations.UnequalAndKeySkips : Prop :=
  ∀ (rx ry : Reg) (s : State),
    Encodes (wordXY 9 rx ry 0#4) (.skipNeq rx ry) ∧ Encodes (wordX 0xE rx 0x9E#8) (.skipKeyPressed rx) ∧
    Encodes (wordX 0xE rx 0xA1#8) (.skipKeyNPressed rx) ∧
    exec (.skipNeq rx ry) s = .next { s with pc := if s.reg rx ≠ s.reg ry then s.pc + 4#16 else s.pc + 2#16 } ∧
    exec (.skipKeyPressed rx) s =
      .next { s with pc := if s.keys.getLsbD ((s.reg rx).toNat % 16) = true then s.pc + 4#16 else s.pc + 2#16 } ∧
    exec (.skipKeyNPressed rx) s =
      .next { s with pc := if s.keys.getLsbD ((s.reg rx).toNat % 16) = false then s.pc + 4#16 else s.pc + 2#16 }

/-! ## Load and ALU (41_load_alu) -/

/-- LoadI, AddI, Move, Or, And, Xor: the destination's new value and nothing else; that no flag is written is decision D8
(the low nibbles 0 to 3 are bound by decision D4). -/
def Obligations.LoadsAndLogicResults : Prop :=
  (∀ (rx : Reg) (imm : Byte) (s : State),
    Encodes (wordX 6 rx imm) (.loadI rx imm) ∧ Encodes (wordX 7 rx imm) (.addI rx imm) ∧
    (∃ t, exec (.loadI rx imm) s = .next t ∧ RegistersOnly [rx] s t ∧ t.reg rx = imm) ∧
    (∃ t, exec (.addI rx imm) s = .next t ∧ RegistersOnly [rx] s t ∧
      (t.reg rx).toNat = ((s.reg rx).toNat + imm.toNat) % 256)) ∧
  (∀ (rx ry : Reg) (s : State),
    Encodes (wordXY 8 rx ry 0#4) (.move rx ry) ∧ Encodes (wordXY 8 rx ry 1#4) (.or rx ry) ∧
    Encodes (wordXY 8 rx ry 2#4) (.and rx ry) ∧ Encodes (wordXY 8 rx ry 3#4) (.xor rx ry) ∧
    (∃ t, exec (.move rx ry) s = .next t ∧ RegistersOnly [rx] s t ∧ t.reg rx = s.reg ry) ∧
    (∃ t, exec (.or rx ry) s = .next t ∧ RegistersOnly [rx] s t ∧ t.reg rx = s.reg rx ||| s.reg ry) ∧
    (∃ t, exec (.and rx ry) s = .next t ∧ RegistersOnly [rx] s t ∧ t.reg rx = s.reg rx &&& s.reg ry) ∧
    (∃ t, exec (.xor rx ry) s = .next t ∧ RegistersOnly [rx] s t ∧ t.reg rx = s.reg rx ^^^ s.reg ry))

/-- R131: the sum wraps, the flag is the carry, and with `rx = 15` the flag wins. -/
def Obligations.AddResultAndCarry : Prop :=
  ∀ (rx ry : Reg) (s : State),
    Encodes (wordXY 8 rx ry 4#4) (.add rx ry) ∧
    ∃ t, exec (.add rx ry) s = .next t ∧ RegistersOnly [rx, 15] s t ∧
      (rx ≠ 15 → (t.reg rx).toNat = ((s.reg rx).toNat + (s.reg ry).toNat) % 256) ∧
      (t.reg 15).toNat = if 256 ≤ (s.reg rx).toNat + (s.reg ry).toNat then 1 else 0

/-- Sub and SubN: the difference wraps, the flag is 1 iff the minuend is strictly greater (decision D7 at equality), and with
`rx = 15` the flag wins (the low nibbles 5 and 7 are bound by decision D4). -/
def Obligations.SubtractResultsAndFlag : Prop :=
  ∀ (rx ry : Reg) (s : State),
    Encodes (wordXY 8 rx ry 5#4) (.sub rx ry) ∧ Encodes (wordXY 8 rx ry 7#4) (.subN rx ry) ∧
    (∃ t, exec (.sub rx ry) s = .next t ∧ RegistersOnly [rx, 15] s t ∧
      (rx ≠ 15 → (t.reg rx).toNat = (256 + (s.reg rx).toNat - (s.reg ry).toNat) % 256) ∧
      (t.reg 15).toNat = if (s.reg ry).toNat < (s.reg rx).toNat then 1 else 0) ∧
    (∃ t, exec (.subN rx ry) s = .next t ∧ RegistersOnly [rx, 15] s t ∧
      (rx ≠ 15 → (t.reg rx).toNat = (256 + (s.reg ry).toNat - (s.reg rx).toNat) % 256) ∧
      (t.reg 15).toNat = if (s.reg rx).toNat < (s.reg ry).toNat then 1 else 0)

/-- Shr and Shl: `V[rx]` in place (decision D5), the flag written first and then `V[rx]` shifted (decision D6), so that with
`rx = 15` the flag just written is what is shifted (the low nibbles 6 and 0xE are bound by decision D4). -/
def Obligations.ShiftResultsAndFlag : Prop :=
  ∀ (rx ry : Reg) (s : State),
    Encodes (wordXY 8 rx ry 6#4) (.shr rx ry) ∧ Encodes (wordXY 8 rx ry 0xE#4) (.shl rx ry) ∧
    (∃ t, exec (.shr rx ry) s = .next t ∧ RegistersOnly [rx, 15] s t ∧
      (rx ≠ 15 → (t.reg rx).toNat = (s.reg rx).toNat / 2 ∧ (t.reg 15).toNat = (s.reg rx).toNat % 2) ∧
      (rx = 15 → (t.reg 15).toNat = 0)) ∧
    (∃ t, exec (.shl rx ry) s = .next t ∧ RegistersOnly [rx, 15] s t ∧
      (rx ≠ 15 → (t.reg rx).toNat = 2 * (s.reg rx).toNat % 256 ∧ (t.reg 15).toNat = (s.reg rx).toNat / 128) ∧
      (rx = 15 → (t.reg 15).toNat = 2 * ((s.reg rx).toNat / 128)))

/-! ## Index register and memory (42_index_memory) -/

/-- LoadA and AddIndex: the 12-bit address, and the sum modulo 65536 without a flag (decision D12; the byte 0x1E is bound by
decision D3). -/
def Obligations.IndexWrites : Prop :=
  (∀ (addr : Addr) (s : State), Encodes (wordA 0xA addr) (.loadA addr) ∧
    exec (.loadA addr) s = .next { s with i := BitVec.ofNat 16 addr.toNat, pc := s.pc + 2#16 }) ∧
  (∀ (rx : Reg) (s : State), Encodes (wordX 0xF rx 0x1E#8) (.addIndex rx) ∧
    ∃ t, exec (.addIndex rx) s = .next t ∧ t = { s with i := t.i, pc := s.pc + 2#16 } ∧
      t.i.toNat = (s.i.toNat + (s.reg rx).toNat) % 65536)

/-- SpriteLoc: `5 × V[rx]` below 16, a fault from 16 up (the byte 0x29 is bound by decision D3). -/
def Obligations.SpriteLocPointsAtGlyph : Prop :=
  ∀ (rx : Reg) (s : State), Encodes (wordX 0xF rx 0x29#8) (.spriteLoc rx) ∧
    ((s.reg rx).toNat < 16 → ∃ t, exec (.spriteLoc rx) s = .next t ∧ t = { s with i := t.i, pc := s.pc + 2#16 } ∧
      t.i.toNat = 5 * (s.reg rx).toNat) ∧
    (16 ≤ (s.reg rx).toNat → exec (.spriteLoc rx) s = .fault .invalidSprite)

/-- StoreBCD: the three digits at `I`, `I + 1`, `I + 2`, every other byte and all else kept; past 4095 a fault (decision D11;
the byte 0x33 is bound by decision D3). -/
def Obligations.StoreBCDWritesDigits : Prop :=
  ∀ (rx : Reg) (s : State), Encodes (wordX 0xF rx 0x33#8) (.storeBCD rx) ∧
    (s.mem.wf = true → s.i.toNat + 2 ≤ 4095 → ∃ t, exec (.storeBCD rx) s = .next t ∧
      t = { s with mem := t.mem, pc := s.pc + 2#16 } ∧
      (t.readByte s.i.toNat).toNat = (s.reg rx).toNat / 100 ∧
      (t.readByte (s.i.toNat + 1)).toNat = (s.reg rx).toNat / 10 % 10 ∧
      (t.readByte (s.i.toNat + 2)).toNat = (s.reg rx).toNat % 10 ∧
      ∀ a, a < s.i.toNat ∨ s.i.toNat + 3 ≤ a → t.readByte a = s.readByte a) ∧
    (4095 < s.i.toNat + 2 → exec (.storeBCD rx) s = .fault .memoryError)

/-- StoreRegs: `V[k]` at `I + k` for `k` up to `rx`, every other byte and all else (`I` too: decision D13) kept; past 4095 a
fault (decision D11). -/
def Obligations.StoreRegsWritesBlock : Prop :=
  ∀ (rx : Reg) (s : State), Encodes (wordX 0xF rx 0x55#8) (.storeRegs rx) ∧
    (s.mem.wf = true → s.i.toNat + rx.val ≤ 4095 → ∃ t, exec (.storeRegs rx) s = .next t ∧
      t = { s with mem := t.mem, pc := s.pc + 2#16 } ∧
      (∀ k : Reg, k ≤ rx → t.readByte (s.i.toNat + k.val) = s.reg k) ∧
      ∀ a, a < s.i.toNat ∨ s.i.toNat + rx.val < a → t.readByte a = s.readByte a) ∧
    (4095 < s.i.toNat + rx.val → exec (.storeRegs rx) s = .fault .memoryError)

/-- LoadRegs: `V[k]` from `I + k` for `k` up to `rx`, the registers above and all else (`I` too: decision D13) kept; past 4095
a fault (decision D11; the byte 0x65 is bound by decision D3). -/
def Obligations.LoadRegsReadsBlock : Prop :=
  ∀ (rx : Reg) (s : State), Encodes (wordX 0xF rx 0x65#8) (.loadRegs rx) ∧
    (s.i.toNat + rx.val ≤ 4095 → ∃ t, exec (.loadRegs rx) s = .next t ∧
      t = { s with v := t.v, pc := s.pc + 2#16 } ∧
      (∀ k : Reg, k ≤ rx → t.reg k = s.readByte (s.i.toNat + k.val)) ∧
      (∀ k : Reg, rx < k → t.reg k = s.reg k)) ∧
    (4095 < s.i.toNat + rx.val → exec (.loadRegs rx) s = .fault .memoryError)

/-- LoadRegs after StoreRegs with the same `I` and `rx` restores the same values, whatever the registers held between. -/
def Obligations.LoadRestoresStored : Prop :=
  ∀ (rx : Reg) (s t u : State), s.mem.wf = true → exec (.storeRegs rx) s = .next t → u.mem = t.mem → u.i = s.i →
    ∃ w, exec (.loadRegs rx) u = .next w ∧ ∀ k : Reg, k ≤ rx → w.reg k = s.reg k

/-- A store into the instruction bytes at the next `pc` is seen by the next fetch, with nothing in between (20_memory
section 6). -/
def Obligations.FetchSeesStoredBytes : Prop :=
  ∀ (rx j k : Reg) (s t : State), s.mem.wf = true → exec (.storeRegs rx) s = .next t → k ≤ rx → k.val = j.val + 1 →
    t.pc.toNat = s.i.toNat + j.val →
    fetchWord t = .ok (BitVec.ofNat 16 ((s.reg j).toNat * 256 + (s.reg k).toNat))

/-! ## Display (43_display) -/

/-- R162: a hit iff prior pixel and colour are both nonzero, the pixel XORed, every other pixel kept. The framebuffer is in
its canonical form (every reachable one is: `ReachableStatesKeepInvariant`). -/
def Obligations.XorPixelUnit : Prop :=
  ∀ (inv : Bool) (fb : Framebuffer) (x y : Nat) (c : Word), fb.wf = true → x < 64 → y < 32 →
    ((xorPixel inv fb x y c).2 = true ↔ fb.get (displayOffset inv x y) ≠ 0#32 ∧ c ≠ 0#32) ∧
    (xorPixel inv fb x y c).1.get (displayOffset inv x y) = fb.get (displayOffset inv x y) ^^^ c ∧
    (∀ o, o ≠ displayOffset inv x y → (xorPixel inv fb x y c).1.get o = fb.get o)

/-- The Display unit: `Offset` is a bijection onto the 2048 offsets (row-major: decision D16), `clear` fills, `set_pixel`
overwrites one pixel, and two equal `xor_pixel` calls restore the framebuffer itself. -/
def Obligations.DisplayUnitLaws : Prop :=
  (∀ (inv : Bool) (o : Nat), o < 2048 → ∃ x y, x < 64 ∧ y < 32 ∧ displayOffset inv x y = o ∧
    ∀ x' y', x' < 64 → y' < 32 → displayOffset inv x' y' = o → x' = x ∧ y' = y) ∧
  (∀ (c : Word) (o : Nat), o < 2048 → (displayClear c).get o = c) ∧
  (∀ c : Word, (displayClear c).wf = true) ∧
  (∀ (inv : Bool) (fb : Framebuffer) (x y : Nat) (c : Word), fb.wf = true → x < 64 → y < 32 →
    (setPixel inv fb x y c).get (displayOffset inv x y) = c ∧
    (∀ o, o ≠ displayOffset inv x y → (setPixel inv fb x y c).get o = fb.get o) ∧
    (xorPixel inv (xorPixel inv fb x y c).1 x y c).1 = fb)

/-- Cls: every pixel becomes 0 (decision D16), nothing else changes. -/
def Obligations.ClsDarkensDisplay : Prop :=
  Encodes 0x00E0#16 .cls ∧
  ∀ s : State, ∃ t, exec .cls s = .next t ∧ t = { s with fb := t.fb, pc := s.pc + 2#16 } ∧ ∀ o, t.fb.get o = 0x00000000#32

/-- DrawSprite, pixel by pixel: the pixels the sprite covers are XORed with 0xFFFFFFFF (decision D16), the others kept; the
flag is 1 iff a covered pixel was nonzero; with `n = 0` nothing is read or drawn; past 4095 a fault (decision D11). -/
def Obligations.DrawSpriteBlits : Prop :=
  ∀ (rx ry : Reg) (n : Nibble) (s : State),
    let rows := (List.range n.toNat).map fun k => s.readByte (s.i.toNat + k)
    let covers := spriteCovers rows (s.reg rx).toNat (s.reg ry).toNat
    Encodes (wordXY 0xD rx ry n) (.drawSprite rx ry n) ∧
    (s.fb.wf = true → n = 0#4 ∨ s.i.toNat + n.toNat ≤ 4096 → ∃ t, exec (.drawSprite rx ry n) s = .next t ∧
      t = { s with v := t.v, fb := t.fb, pc := s.pc + 2#16 } ∧
      (∀ r : Reg, r ≠ 15 → t.reg r = s.reg r) ∧
      (∀ x y, x < 64 → y < 32 →
        (covers x y → t.pixelAt x y = s.pixelAt x y ^^^ 0xFFFFFFFF#32) ∧
        (¬ covers x y → t.pixelAt x y = s.pixelAt x y)) ∧
      ((∃ x y, x < 64 ∧ y < 32 ∧ covers x y ∧ s.pixelAt x y ≠ 0#32) → t.reg 15 = 1#8) ∧
      ((∀ x y, x < 64 → y < 32 → covers x y → s.pixelAt x y = 0#32) → t.reg 15 = 0#8)) ∧
    (n ≠ 0#4 → 4096 < s.i.toNat + n.toNat → exec (.drawSprite rx ry n) s = .fault .memoryError)

/-- Drawing the same sprite twice at the same place restores the framebuffer itself. -/
def Obligations.DrawTwiceRestores : Prop :=
  ∀ (rx ry : Reg) (n : Nibble) (s t : State), s.fb.wf = true → rx ≠ 15 → ry ≠ 15 →
    exec (.drawSprite rx ry n) s = .next t →
    ∃ u, exec (.drawSprite rx ry n) t = .next u ∧ u.fb = s.fb

/-- Everything a program can observe is independent of `invert_y`: from two states that agree but for the inversion flag and
show the same logical pixels, every instruction does the same, and the same logical pixels are shown again. -/
def Obligations.InversionIsInvisible : Prop :=
  ∀ (i : Instr) (s u t : State), s.fb.wf = true → u.fb.wf = true → u = { s with invertY := !s.invertY, fb := u.fb } →
    (∀ x y, x < 64 → y < 32 → u.pixelAt x y = s.pixelAt x y) → exec i s = .next t →
    ∃ w, exec i u = .next w ∧ w = { t with invertY := !t.invertY, fb := w.fb } ∧
      ∀ x y, x < 64 → y < 32 → w.pixelAt x y = t.pixelAt x y

/-! ## Keypad, timers, generator (44_keypad_timer_random) -/

/-- R176: the least held key, or none exactly when no key is held. -/
def Obligations.LowestKeyWins : Prop :=
  ∀ keys : Half,
    (∀ k, firstKeyPressed keys = some k ↔ k < 16 ∧ keys.getLsbD k = true ∧ ∀ j, j < k → keys.getLsbD j = false) ∧
    (firstKeyPressed keys = none ↔ keys = 0#16)

/-- WaitForKey: the lowest held key to `V[rx]`, status Running, `pc + 2`; with no key status WaitingForKey and the same `pc`
(the byte 0x0A is bound by decision D3). -/
def Obligations.WaitForKeyTakesOrStalls : Prop :=
  ∀ (rx : Reg) (s : State), Encodes (wordX 0xF rx 0x0A#8) (.waitForKey rx) ∧
    (s.keys = 0#16 → exec (.waitForKey rx) s = .next { s with status := .waitingForKey }) ∧
    (∀ k, k < 16 → s.keys.getLsbD k = true → (∀ j, j < k → s.keys.getLsbD j = false) →
      ∃ t, exec (.waitForKey rx) s = .next t ∧ t = { s with v := t.v, status := .running, pc := s.pc + 2#16 } ∧
        (t.reg rx).toNat = k ∧ ∀ r : Reg, r ≠ rx → t.reg r = s.reg r)

/-- GetDelay, SetDelay, SetSound (named and bound by decisions D2 and D3). -/
def Obligations.TimerInstructions : Prop :=
  ∀ (rx : Reg) (s : State),
    Encodes (wordX 0xF rx 0x07#8) (.getDelay rx) ∧ Encodes (wordX 0xF rx 0x15#8) (.setDelay rx) ∧
    Encodes (wordX 0xF rx 0x18#8) (.setSound rx) ∧
    (∃ t, exec (.getDelay rx) s = .next t ∧ RegistersOnly [rx] s t ∧ (t.reg rx).toNat = s.dt.toNat % 256) ∧
    (∃ t, exec (.setDelay rx) s = .next t ∧ t = { s with dt := t.dt, pc := s.pc + 2#16 } ∧
      t.dt.toNat = (s.reg rx).toNat) ∧
    (∃ t, exec (.setSound rx) s = .next t ∧ t = { s with st := t.st, pc := s.pc + 2#16 } ∧
      t.st.toNat = (s.reg rx).toNat)

/-- R181, in natural numbers: the update modulo 2^64, and the rotated 32-bit output from the state before it. -/
def Obligations.GeneratorStepExact : Prop :=
  ∀ g : Rng,
    let old := g.state.toNat
    let xs := ((old / 2 ^ 18) ^^^ old) / 2 ^ 27 % 2 ^ 32
    let rot := old / 2 ^ 59
    (rngGenerate g).2.state.toNat = (old * 0x5851F42D4C957F2D + g.inc.toNat) % 2 ^ 64 ∧
    (rngGenerate g).2.inc = g.inc ∧
    (rngGenerate g).1.toNat = (xs / 2 ^ rot + xs * 2 ^ (32 - rot)) % 2 ^ 32

/-- RngReset in closed form, and the reference stream of seed 0, sequence 42 (the unfolding and the evaluation are the spec's
own inferences): an odd increment and a two-step warm-up. -/
def Obligations.GeneratorResetClosedForm : Prop :=
  (∀ seed sequence : Long,
    (rngReset seed sequence).inc.toNat = 2 * sequence.toNat % 2 ^ 64 + 1 ∧
    (rngReset seed sequence).state =
      ((rngReset seed sequence).inc + seed) * 0x5851F42D4C957F2D#64 + (rngReset seed sequence).inc) ∧
  rngReset 0#64 42#64 = { state := 0x5336130A6DA33A46#64, inc := 0x55#64 } ∧
  (rngGenerate (rngReset 0#64 42#64)).1 = 0x3F59B03E#32 ∧
  (rngGenerate (rngGenerate (rngReset 0#64 42#64)).2).1 = 0xBCFF9A00#32 ∧
  (rngGenerate (rngGenerate (rngGenerate (rngReset 0#64 42#64)).2).2).1 = 0xDB13D6D5#32

/-- RndAnd: one generator step, and the low byte of its output (decision D19) ANDed with `imm`. -/
def Obligations.RndAndMasksOutput : Prop :=
  ∀ (rx : Reg) (imm : Byte) (s : State), Encodes (wordX 0xC rx imm) (.rndAnd rx imm) ∧
    ∃ t, exec (.rndAnd rx imm) s = .next t ∧
      t = { s with v := t.v, rng := (rngGenerate s.rng).2, pc := s.pc + 2#16 } ∧
      (t.reg rx).toNat = (rngGenerate s.rng).1.toNat % 256 &&& imm.toNat ∧ ∀ r : Reg, r ≠ rx → t.reg r = s.reg r

/-! ## Frames, over all instructions -/

/-- No instruction writes a general register but its destinations: `rx`, the block of LoadRegs, and `V[15]` for the six flag
writers (10_state section 1; that the others write no flag is decision D8). -/
def Obligations.RegisterFrame : Prop :=
  ∀ (i : Instr) (s t : State), exec i s = .next t → ∀ r : Reg, r ∉ destRegs i → t.reg r = s.reg r

/-- Every byte of memory reads as before but the bytes stored to: `storedBytes i` of them from the address in `I`. -/
def Obligations.MemoryFrame : Prop :=
  ∀ (i : Instr) (s t : State), exec i s = .next t →
    ∀ a, a < s.base ∨ s.base + storedBytes i ≤ a → t.readByte a = s.readByte a

/-- Who may write the special state: `I`, the stack, the display, the generator, the timers and the status each only by their
own instructions; the cycle counter, the inversion flag, the keys, the rate and the accumulator by none. -/
def Obligations.SpecialStateFrame : Prop :=
  ∀ (i : Instr) (s t : State), exec i s = .next t →
    t.cycles = s.cycles ∧ t.invertY = s.invertY ∧ t.keys = s.keys ∧ t.cpuHz = s.cpuHz ∧ t.acc = s.acc ∧
    (writesIndex i = false → t.i = s.i) ∧ (usesStack i = false → t.stack = s.stack ∧ t.sp = s.sp) ∧
    (writesDisplay i = false → t.fb = s.fb) ∧ ((∀ rx imm, i ≠ .rndAnd rx imm) → t.rng = s.rng) ∧
    ((∀ rx, i ≠ .setDelay rx) → t.dt = s.dt) ∧ ((∀ rx, i ≠ .setSound rx) → t.st = s.st) ∧
    ((∀ rx, i ≠ .waitForKey rx) → t.status = s.status)

/-- The status machine (45_cpu_tick section 2): only WaitForKey changes the status, to WaitingForKey without a key and to
Running with one; no step enters or leaves Halted; and WaitingForKey does not gate the step. -/
def Obligations.StatusMachine : Prop :=
  (∀ (rx : Reg) (s t : State), exec (.waitForKey rx) s = .next t →
    t.status = if s.keys = 0#16 then .waitingForKey else .running) ∧
  (∀ (i : Instr) (s t : State), (∀ rx, i ≠ .waitForKey rx) → exec i s = .next t → t.status = s.status) ∧
  (∀ s t : State, step s = .next t → (t.status = .halted ↔ s.status = .halted)) ∧
  (∀ s : State, s.status = .waitingForKey →
    (∀ f, step { s with status := .running } = .fault f ↔ step s = .fault f) ∧
    (∀ t, step s = .next t → ∃ u, step { s with status := .running } = .next u ∧ t = { u with status := t.status }))

/-! ## Timers, divider, host operations (60_exceptions, 70_reset_and_hazards) -/

/-- R236: both timers lose one while nonzero, nothing else changes. -/
def Obligations.PeripheralTickDecrements : Prop :=
  ∀ s : State, peripheralTick s = { s with dt := (peripheralTick s).dt, st := (peripheralTick s).st } ∧
    (peripheralTick s).dt.toNat = s.dt.toNat - 1 ∧ (peripheralTick s).st.toNat = s.st.toNat - 1

/-- The divider step as one test (decision D25): the accumulator grows by 60, and where it reaches the rate the peripheral
tick fires and the rate is subtracted. The rate is at least 60 (every reachable one is). -/
def Obligations.DividerStepExact : Prop :=
  ∀ s : State, 60 ≤ s.cpuHz.toNat →
    (s.cpuHz.toNat ≤ s.acc.toNat + 60 →
      dividerStep s = { peripheralTick s with acc := (dividerStep s).acc } ∧
      (dividerStep s).acc.toNat = s.acc.toNat + 60 - s.cpuHz.toNat) ∧
    (s.acc.toNat + 60 < s.cpuHz.toNat →
      dividerStep s = { s with acc := (dividerStep s).acc } ∧ (dividerStep s).acc.toNat = s.acc.toNat + 60)

/-- The rate law (60_exceptions section 7): whatever instructions the `k` steps run, from `acc = 0` at a rate of at least 60
they fire exactly `60 k div cpu_hz` peripheral ticks and leave `acc = 60 k mod cpu_hz`. A divider step that the count counts
is a peripheral tick, and one that it does not count is none. In Halted, where no instruction writes the timers, each timer has
lost that many, not below 0; that the divider steps go on in Halted is decision D27, and only the optional `halt` of log 11
enters it. -/
def Obligations.DividerRateLaw : Prop :=
  (∀ u : State, dividerStep u = { (if u.dividerFires then peripheralTick u else u) with acc := (dividerStep u).acc }) ∧
  ∀ (k : Nat) (s t : State), 60 ≤ s.cpuHz.toNat → s.acc = 0#32 → Runs k s t →
    ticksFired k s = 60 * k / s.cpuHz.toNat ∧ t.cpuHz = s.cpuHz ∧ t.acc.toNat = 60 * k % s.cpuHz.toNat ∧
    (s.status = .halted →
      t.dt.toNat = s.dt.toNat - 60 * k / s.cpuHz.toNat ∧ t.st.toNat = s.st.toNat - 60 * k / s.cpuHz.toNat)

/-- R238: `advance_ms` runs `floor(cpu_hz × elapsed / 1000)` turns of Tick and DividerStep, and stops at the first fault with
no divider step for the faulting Tick. -/
def Obligations.AdvanceMsRunsAndStops : Prop :=
  (∀ u w : State, tick u = .next w → step u = .next (dividerStep w)) ∧
  (∀ (ms : Word) (s t : State), Runs (s.cpuHz.toNat * ms.toNat / 1000) s t → advanceMs ms s = (t, .ok)) ∧
  (∀ (ms : Word) (s u : State) (j : Nat) (f : Fault), j < s.cpuHz.toNat * ms.toNat / 1000 → Runs j s u →
    tick u = .fault f → advanceMs ms s = ({ u with cycles := u.cycles + 1#64 }, .fault f))

/-- `load_rom`: an image of at most 3584 bytes lands at 0x200, every other byte and all else kept; a longer one is refused
with nothing changed (decision D28). -/
def Obligations.LoadRomCopies : Prop :=
  ∀ (bytes : List Byte) (s : State),
    (bytes.length ≤ 3584 → s.mem.wf = true →
      (applyHostOp (.loadRom bytes) s).2 = .ok ∧
      (applyHostOp (.loadRom bytes) s).1 = { s with mem := (applyHostOp (.loadRom bytes) s).1.mem } ∧
      (∀ k, k < bytes.length → (applyHostOp (.loadRom bytes) s).1.readByte (0x200 + k) = bytes.getD k 0#8) ∧
      (∀ a, a < 0x200 ∨ 0x200 + bytes.length ≤ a → (applyHostOp (.loadRom bytes) s).1.readByte a = s.readByte a)) ∧
    (3584 < bytes.length → applyHostOp (.loadRom bytes) s = (s, .romTooLarge))

/-- R175: `key_down` sets one bit of the mask and `key_up` clears it; every other bit and all else kept. -/
def Obligations.KeyOperations : Prop :=
  ∀ (k : Nibble) (s : State),
    keyDown k s = { s with keys := (keyDown k s).keys } ∧ keyUp k s = { s with keys := (keyUp k s).keys } ∧
    (∀ j, j < 16 → (keyDown k s).keys.getLsbD j = (decide (j = k.toNat) || s.keys.getLsbD j)) ∧
    (∀ j, j < 16 → (keyUp k s).keys.getLsbD j = (!decide (j = k.toNat) && s.keys.getLsbD j)) ∧
    keyDown k (keyDown k s) = keyDown k s ∧ keyUp k (keyUp k s) = keyUp k s

/-- `set_cpu_hz` below 60 changes nothing; from 60 up it changes the rate and nothing else (the spec's inference). -/
def Obligations.SetCpuHzAcceptsFrom60 : Prop :=
  ∀ (hz : Word) (s : State),
    (hz.toNat < 60 → applyHostOp (.setCpuHz hz) s = (s, .rejected)) ∧
    (60 ≤ hz.toNat → applyHostOp (.setCpuHz hz) s = ({ s with cpuHz := hz }, .ok))

/-- The host's reads change nothing: the 2048 pixels in offset order, the dimensions, the two timers, the tone (decisions
D16 and D33). -/
def Obligations.HostReadsChangeNothing : Prop :=
  ∀ s : State, applyHostOp .framebufferDims s = (s, .dims 64 32) ∧ applyHostOp .readSound s = (s, .timer s.st) ∧
    applyHostOp .readDelay s = (s, .timer s.dt) ∧ (soundOn s = true ↔ s.st.toNat ≠ 0) ∧
    ∃ view, applyHostOp .framebuffer s = (s, .pixels view) ∧ view.length = 2048 ∧
      ∀ o, o < 2048 → view.getD o 0#32 = s.fb.get o

/-- The values after construction (the table of 10_state section 5; all but pc, the dark display and the zero timers are
decisions of the spec, D16 to D22), for every choice of the parameters; `new` refuses a rate below 60 (D24); and a fresh
instance without a ROM faults on its first Tick (the spec's inference in 70_reset_and_hazards section 2). -/
def Obligations.ConstructionValues : Prop :=
  ∀ p : Params,
    (p.cpuHz.toNat < 60 → construct p = none) ∧ (60 ≤ p.cpuHz.toNat → construct p = some (State.new p)) ∧
    (State.new p).pc = 0x200#16 ∧ (State.new p).i = 0#16 ∧ (State.new p).sp.val = 0 ∧
    (State.new p).status = .running ∧ (State.new p).cycles = 0#64 ∧ (State.new p).keys = 0#16 ∧
    (State.new p).dt = 0#16 ∧ (State.new p).st = 0#16 ∧ (State.new p).acc = 0#32 ∧ (State.new p).cpuHz = p.cpuHz ∧
    (State.new p).invertY = p.invertY ∧ (State.new p).rng = rngReset p.rngSeed p.rngSeq ∧
    (∀ r : Reg, (State.new p).reg r = 0#8) ∧ (∀ k : Fin 16, (State.new p).stack[k.val] = 0#16) ∧
    (∀ o, (State.new p).fb.get o = 0#32) ∧
    (∀ a : Fin 80, (State.new p).readByte a.val = p.font[a.val]) ∧
    (∀ a, 80 ≤ a → (State.new p).readByte a = 0#8) ∧
    step (State.new p) = .fault .invalidInstruction

/-- R264: execution starts at 0x200 with the first word of the ROM. -/
def Obligations.ExecutionStartsAtRom : Prop :=
  ∀ (p : Params) (hi lo : Byte) (rest : List Byte), rest.length ≤ 3582 →
    (State.new p).pc.toNat = 0x200 ∧
    fetchWord (applyHostOp (.loadRom (hi :: lo :: rest)) (State.new p)).1 =
      .ok (BitVec.ofNat 16 (hi.toNat * 256 + lo.toNat))

/-! ## Invariants -/

/-- The state after reset meets the invariants, and its accumulator is below the rate. The rate 500 of `State.reset` is the
model's choice (log 3). -/
def Obligations.ResetMeetsInvariant : Prop := State.reset.Inv ∧ State.reset.Divided

/-- Every step keeps the invariants of 10_state section 7, from every state that meets them. -/
def Obligations.StepKeepsInvariant : Prop :=
  ∀ s t : State, s.Inv → step s = .next t → t.Inv

/-- The accumulator stays below the rate as long as the rate is not lowered, and no step changes the rate. -/
def Obligations.StepKeepsDivided : Prop :=
  ∀ s t : State, s.Divided → step s = .next t → t.Divided ∧ t.cpuHz = s.cpuHz

/-- Every state a host can bring an instance to, by any sequence of its operations, meets the invariants. -/
def Obligations.ReachableStatesKeepInvariant : Prop :=
  ∀ s : State, Reachable s → s.Inv
end

