-- ==== Sys2Proof/Laws/Sparse.lean ====
section
/-! SUPPORT. The laws of the canonical sparse form: read after write, and that a write keeps the form. -/

namespace Sys2Proof.Machine

variable {w : Nat} {d : Nat → BitVec w} {bound low k j : Nat} {u v : BitVec w} {l rest : List (Nat × BitVec w)}

theorem sparseWfFrom_cons :
    sparseWfFrom d bound low ((j, u) :: rest) = true ↔
      low ≤ j ∧ j < bound ∧ u ≠ d j ∧ sparseWfFrom d bound (j + 1) rest = true := by
  simp [sparseWfFrom, and_assoc]

/-- Lowering the lower bound keeps the form. -/
theorem sparseWfFrom_mono (h : sparseWfFrom d bound low l = true) (hk : k ≤ low) : sparseWfFrom d bound k l = true := by
  cases l with
  | nil => rfl
  | cons c rest =>
    obtain ⟨j, u⟩ := c
    rw [sparseWfFrom_cons] at h ⊢
    exact ⟨hk.trans h.1, h.2⟩

/-- Below the lower bound nothing is listed. -/
theorem sparseGet_below (h : sparseWfFrom d bound low l = true) (hk : k < low) : sparseGet d l k = d k := by
  induction l generalizing low with
  | nil => rfl
  | cons c rest ih =>
    obtain ⟨j, u⟩ := c
    rw [sparseWfFrom_cons] at h
    rw [sparseGet, if_neg (by omega)]
    exact ih h.2.2.2 (by omega)

/-- Outside the space nothing is listed. -/
theorem sparseGet_above (h : sparseWfFrom d bound low l = true) (hk : bound ≤ k) : sparseGet d l k = d k := by
  induction l generalizing low with
  | nil => rfl
  | cons c rest ih =>
    obtain ⟨j, u⟩ := c
    rw [sparseWfFrom_cons] at h
    rw [sparseGet, if_neg (by omega)]
    exact ih h.2.2.2

/-- A write leaves every other address alone. -/
theorem sparseGet_set_other (h : j ≠ k) : sparseGet d (sparseSet d k v l) j = sparseGet d l j := by
  induction l with
  | nil => by_cases hv : v = d k <;> simp [sparseSet, sparseGet, hv, Ne.symm h]
  | cons c rest ih =>
    obtain ⟨i, u⟩ := c
    rw [sparseSet]
    split
    · split
      · rfl
      · rw [sparseGet, if_neg (Ne.symm h)]
    · split
      · rename_i hi
        subst hi
        rw [sparseGet, if_neg (Ne.symm h)]
        split
        · rfl
        · rw [sparseGet, if_neg (Ne.symm h)]
      · rw [sparseGet, sparseGet, ih]

/-- A read after a write to the same address gives the value written. -/
theorem sparseGet_set_self (h : sparseWfFrom d bound low l = true) : sparseGet d (sparseSet d k v l) k = v := by
  induction l generalizing low with
  | nil => by_cases hv : v = d k <;> simp [sparseSet, sparseGet, hv]
  | cons c rest ih =>
    obtain ⟨i, u⟩ := c
    rw [sparseWfFrom_cons] at h
    rw [sparseSet]
    split
    · split
      · rename_i hk hv
        rw [sparseGet, if_neg (by omega), sparseGet_below h.2.2.2 (by omega), hv]
      · rw [sparseGet, if_pos rfl]
    · split
      · split
        · rename_i hi hv
          rw [sparseGet_below h.2.2.2 (by omega), hv]
        · rw [sparseGet, if_pos rfl]
      · rename_i hk hi
        rw [sparseGet, if_neg (Ne.symm hi)]
        exact ih h.2.2.2

/-- A write inside the space keeps the canonical form. -/
theorem sparseSet_wf (h : sparseWfFrom d bound low l = true) (hlow : low ≤ k) (hb : k < bound) :
    sparseWfFrom d bound low (sparseSet d k v l) = true := by
  induction l generalizing low with
  | nil =>
    rw [sparseSet]
    split
    · rfl
    · rename_i hv
      exact sparseWfFrom_cons.2 ⟨hlow, hb, hv, rfl⟩
  | cons c rest ih =>
    obtain ⟨i, u⟩ := c
    have hc := sparseWfFrom_cons.1 h
    rw [sparseSet]
    split
    · split
      · exact h
      · rename_i hk hv
        exact sparseWfFrom_cons.2 ⟨hlow, hb, hv, sparseWfFrom_cons.2 ⟨by omega, hc.2⟩⟩
    · split
      · split
        · exact sparseWfFrom_mono hc.2.2.2 (by omega)
        · rename_i hi hv
          exact sparseWfFrom_cons.2 ⟨hlow, hb, hv, sparseWfFrom_mono hc.2.2.2 (by omega)⟩
      · exact sparseWfFrom_cons.2 ⟨hc.1, hc.2.1, hc.2.2.1, ih hc.2.2.2 (by omega)⟩

theorem sparseGet_head : sparseGet d ((j, u) :: rest) j = u := if_pos rfl

theorem sparseGet_tail (h : j ≠ k) : sparseGet d ((j, u) :: rest) k = sparseGet d rest k := if_neg h

/-- Equal contents, equal lists: the canonical form has one list for each content. -/
theorem sparse_ext {l' : List (Nat × BitVec w)} (h : sparseWfFrom d bound low l = true)
    (h' : sparseWfFrom d bound low l' = true) (he : ∀ k, sparseGet d l k = sparseGet d l' k) : l = l' := by
  induction l generalizing l' low with
  | nil =>
    cases l' with
    | nil => rfl
    | cons c rest =>
      obtain ⟨j, u⟩ := c
      exact absurd ((he j).trans sparseGet_head).symm (sparseWfFrom_cons.1 h').2.2.1
  | cons c rest ih =>
    obtain ⟨j, u⟩ := c
    have hc := sparseWfFrom_cons.1 h
    cases l' with
    | nil => exact absurd (sparseGet_head.symm.trans (he j)) hc.2.2.1
    | cons c' rest' =>
      obtain ⟨j', u'⟩ := c'
      have hc' := sparseWfFrom_cons.1 h'
      rcases Nat.lt_trichotomy j j' with hlt | heq | hgt
      · have hj := sparseGet_head.symm.trans (he j)
        rw [sparseGet_tail (by omega), sparseGet_below hc'.2.2.2 (by omega)] at hj
        exact absurd hj hc.2.2.1
      · subst heq
        obtain rfl : u = u' := sparseGet_head.symm.trans ((he j).trans sparseGet_head)
        rw [ih hc.2.2.2 hc'.2.2.2 fun k => ?_]
        by_cases hk : j = k
        · rw [sparseGet_below hc.2.2.2 (by omega), sparseGet_below hc'.2.2.2 (by omega)]
        · have hj := he k
          rwa [sparseGet_tail hk, sparseGet_tail hk] at hj
      · have hj := (he j').trans sparseGet_head
        rw [sparseGet_tail (by omega), sparseGet_below hc.2.2.2 (by omega)] at hj
        exact absurd hj.symm hc'.2.2.1

end Sys2Proof.Machine
end

