-- ==== Sys2Proof/Laws/Display.lean ====
section
/-! SUPPORT. The laws of the framebuffer and of `xor_pixel` (R160 to R163). -/

namespace Sys2Proof.Machine

variable {fb : Framebuffer} {o p x y : Nat} {c : Word} {inv : Bool}

@[simp] theorem Framebuffer.get_nil : Framebuffer.get [] o = 0#32 := rfl

theorem Framebuffer.get_set_self (h : fb.wf = true) : (fb.set o c).get o = c := sparseGet_set_self h

theorem Framebuffer.get_set_other (h : p ≠ o) : (fb.set o c).get p = fb.get p := sparseGet_set_other h

theorem Framebuffer.set_wf (h : fb.wf = true) (ho : o < 2048) : (fb.set o c).wf = true :=
  sparseSet_wf h (Nat.zero_le _) ho

/-- Equal pixels are equal data. -/
theorem Framebuffer.ext_of_get {fb' : Framebuffer} (h : fb.wf = true) (h' : fb'.wf = true)
    (he : ∀ o, fb.get o = fb'.get o) : fb = fb' :=
  sparse_ext h h' he

/-- A buffer offset stays inside the framebuffer (R160). -/
theorem displayOffset_lt (hx : x < 64) (hy : y < 32) : displayOffset inv x y < 2048 := by
  cases inv <;> simp [displayOffset, displayRow] <;> omega

/-- Two logical coordinates share an offset only when they are equal (R160: the translation is a bijection). -/
theorem displayOffset_inj {x' y' : Nat} (hx : x < 64) (hy : y < 32) (hx' : x' < 64) (hy' : y' < 32) :
    displayOffset inv x y = displayOffset inv x' y' ↔ x = x' ∧ y = y' := by
  cases inv <;> simp [displayOffset, displayRow] <;> omega

@[simp] theorem displayClear_clearColor : displayClear Config.clearColor = [] := rfl

theorem xorPixel_wf (h : fb.wf = true) (hx : x < 64) (hy : y < 32) : (xorPixel inv fb x y c).1.wf = true :=
  Framebuffer.set_wf h (displayOffset_lt hx hy)

theorem xorPixel_self (h : fb.wf = true) :
    (xorPixel inv fb x y c).1.get (displayOffset inv x y) = fb.get (displayOffset inv x y) ^^^ c :=
  Framebuffer.get_set_self h

theorem xorPixel_other (h : o ≠ displayOffset inv x y) : (xorPixel inv fb x y c).1.get o = fb.get o :=
  Framebuffer.get_set_other h

theorem xorPixel_hit :
    (xorPixel inv fb x y c).2 = true ↔ fb.get (displayOffset inv x y) ≠ 0#32 ∧ c ≠ 0#32 := by
  simp [xorPixel]

/-- A sprite bit's colour is `ON_COLOR` for 1 and 0 for 0 (R167). -/
theorem spriteColor_cases (b : Byte) (dx : Nat) : spriteColor b dx = 0xFFFFFFFF#32 ∨ spriteColor b dx = 0#32 := by
  unfold spriteColor
  split
  · exact .inl rfl
  · exact .inr rfl

theorem blitColumns_wf {b : Byte} {x0 : Nat} {dxs : List Nat} {acc : Framebuffer × Bool} (h : acc.1.wf = true)
    (hy : y < 32) : (blitColumns inv b x0 y dxs acc).1.wf = true := by
  induction dxs generalizing acc with
  | nil => exact h
  | cons dx rest ih => exact ih (xorPixel_wf h (Nat.mod_lt _ (by decide)) hy)

theorem blitRows_wf {x0 y0 dy : Nat} {rows : List Byte} {acc : Framebuffer × Bool} (h : acc.1.wf = true) :
    (blitRows inv x0 y0 dy rows acc).1.wf = true := by
  induction rows generalizing acc dy with
  | nil => exact h
  | cons b rest ih => exact ih (blitColumns_wf h (Nat.mod_lt _ (by decide)))

/-- A blit keeps the framebuffer's canonical form. -/
theorem blitSprite_wf {x0 y0 : Nat} {rows : List Byte} (h : fb.wf = true) :
    (blitSprite inv fb x0 y0 rows).1.wf = true :=
  blitRows_wf h

end Sys2Proof.Machine
end

