-- ==== Sys2Proof/Laws/Blit.lean ====
section
/-! SUPPORT. What `blitSprite` does (R167), once: it is a list of `xor_pixel` calls at distinct pixels, so each covered pixel
is XORed once and the flag tells whether a covered pixel was lit before. -/

namespace Sys2Proof.Machine

/-- One `xor_pixel` call: column, row, colour. -/
abbrev PixelOp := Nat × Nat × Word

/-- A list of `xor_pixel` calls, in order. -/
def paint (inv : Bool) : List PixelOp → Framebuffer × Bool → Framebuffer × Bool
  | [], acc => acc
  | (x, y, c) :: rest, acc => paint inv rest ((xorPixel inv acc.1 x y c).1, acc.2 || (xorPixel inv acc.1 x y c).2)

/-- The calls of one sprite row. -/
def columnOps (b : Byte) (x0 y : Nat) (dxs : List Nat) : List PixelOp :=
  dxs.map fun dx => ((x0 + dx) % 64, y, spriteColor b dx)

/-- The calls of the rows from row number `dy` on. -/
def rowOps (x0 y0 : Nat) : Nat → List Byte → List PixelOp
  | _, [] => []
  | dy, b :: rest => columnOps b x0 ((y0 + dy) % 32) [0, 1, 2, 3, 4, 5, 6, 7] ++ rowOps x0 y0 (dy + 1) rest

variable {inv : Bool} {x0 y0 dy : Nat} {rows : List Byte} {ops : List PixelOp} {fb : Framebuffer} {acc : Framebuffer × Bool}

theorem paint_append (ops' : List PixelOp) : paint inv (ops ++ ops') acc = paint inv ops' (paint inv ops acc) := by
  induction ops generalizing acc with
  | nil => rfl
  | cons op rest ih => exact ih

theorem blitColumns_eq (b : Byte) (y : Nat) (dxs : List Nat) :
    blitColumns inv b x0 y dxs acc = paint inv (columnOps b x0 y dxs) acc := by
  induction dxs generalizing acc with
  | nil => rfl
  | cons dx rest ih => exact ih

theorem blitRows_eq : blitRows inv x0 y0 dy rows acc = paint inv (rowOps x0 y0 dy rows) acc := by
  induction rows generalizing acc dy with
  | nil => rfl
  | cons b rest ih => rw [blitRows, rowOps, paint_append, ih, blitColumns_eq]

theorem mem_rowOps {x y : Nat} {c : Word} : (x, y, c) ∈ rowOps x0 y0 dy rows ↔
    ∃ k dx, k < rows.length ∧ dx < 8 ∧ (x0 + dx) % 64 = x ∧ (y0 + dy + k) % 32 = y ∧
      spriteColor (rows.getD k 0#8) dx = c := by
  induction rows generalizing dy with
  | nil => simp [rowOps]
  | cons b rest ih =>
    have hcol : (x, y, c) ∈ columnOps b x0 ((y0 + dy) % 32) [0, 1, 2, 3, 4, 5, 6, 7] ↔
        ∃ dx, dx < 8 ∧ (x0 + dx) % 64 = x ∧ (y0 + dy) % 32 = y ∧ spriteColor b dx = c := by
      have h8 : [0, 1, 2, 3, 4, 5, 6, 7] = List.range 8 := rfl
      simp only [columnOps, h8, List.mem_map, List.mem_range, Prod.mk.injEq]
    rw [rowOps, List.mem_append, hcol, ih]
    constructor
    · rintro (⟨dx, hdx, hx, hy, hc⟩ | ⟨k, dx, hk, hdx, hx, hy, hc⟩)
      · exact ⟨0, dx, by simp, hdx, hx, by simpa using hy, by simpa using hc⟩
      · exact ⟨k + 1, dx, by simpa using hk, hdx, hx, by rw [← hy]; congr 1; omega, by simpa using hc⟩
    · rintro ⟨k, dx, hk, hdx, hx, hy, hc⟩
      cases k with
      | zero => exact .inl ⟨dx, hdx, hx, by simpa using hy, by simpa using hc⟩
      | succ k =>
        exact .inr ⟨k, dx, by simpa using hk, hdx, hx, by rw [← hy]; congr 1; omega, by simpa using hc⟩

/-- The pixels of one sprite are distinct: 8 columns of 64, at most 32 rows of 32. -/
theorem rowOps_distinct (h : rows.length ≤ 32) :
    (rowOps x0 y0 dy rows).Pairwise fun p q => p.1 ≠ q.1 ∨ p.2.1 ≠ q.2.1 := by
  induction rows generalizing dy with
  | nil => exact List.Pairwise.nil
  | cons b rest ih =>
    rw [List.length_cons] at h
    rw [rowOps, List.pairwise_append]
    refine ⟨?_, ih (by omega), ?_⟩
    · simp only [columnOps, List.map_cons, List.map_nil, List.pairwise_cons]
      simp
      omega
    · rintro ⟨x, y, c⟩ hp ⟨x', y', c'⟩ hq
      obtain ⟨dx, _, he⟩ := List.mem_map.1 hp
      obtain ⟨k, dx', hk, _, _, hy', _⟩ := mem_rowOps.1 hq
      cases he
      refine .inr ?_
      simp only
      omega

theorem rowOps_bounds {p : PixelOp} (h : p ∈ rowOps x0 y0 dy rows) : p.1 < 64 ∧ p.2.1 < 32 := by
  obtain ⟨x, y, c⟩ := p
  obtain ⟨k, dx, _, _, rfl, rfl, _⟩ := mem_rowOps.1 h
  exact ⟨Nat.mod_lt _ (by decide), Nat.mod_lt _ (by decide)⟩

/-- A pixel no call names keeps its value. -/
theorem paint_other {o : Nat} (h : ∀ p ∈ ops, displayOffset inv p.1 p.2.1 ≠ o) : (paint inv ops acc).1.get o = acc.1.get o := by
  induction ops generalizing acc with
  | nil => rfl
  | cons p rest ih =>
    obtain ⟨x, y, c⟩ := p
    rw [paint, ih fun q hq => h q (List.mem_cons_of_mem _ hq)]
    exact xorPixel_other (h (x, y, c) List.mem_cons_self).symm

/-- A pixel one call names is XORed with its colour. -/
theorem paint_self {x y : Nat} {c : Word} (hw : acc.1.wf = true) (hb : ∀ p ∈ ops, p.1 < 64 ∧ p.2.1 < 32)
    (hd : ops.Pairwise fun p q => p.1 ≠ q.1 ∨ p.2.1 ≠ q.2.1) (hm : (x, y, c) ∈ ops) :
    (paint inv ops acc).1.get (displayOffset inv x y) = acc.1.get (displayOffset inv x y) ^^^ c := by
  induction ops generalizing acc with
  | nil => cases hm
  | cons p rest ih =>
    have hbr : ∀ q ∈ rest, q.1 < 64 ∧ q.2.1 < 32 := fun q hq => hb q (List.mem_cons_of_mem _ hq)
    obtain ⟨hp, hdr⟩ := List.pairwise_cons.1 hd
    have hpb := hb p List.mem_cons_self
    rcases List.mem_cons.1 hm with rfl | hm'
    · rw [paint, paint_other fun q hq he => ?_, xorPixel_self hw]
      have := (displayOffset_inj (hbr q hq).1 (hbr q hq).2 hpb.1 hpb.2).1 he
      exact (hp q hq).elim (fun h => h this.1.symm) (fun h => h this.2.symm)
    · have hmb := hbr _ hm'
      obtain ⟨x', y', c'⟩ := p
      have hne : displayOffset inv x y ≠ displayOffset inv x' y' := fun he => by
        have := (displayOffset_inj hmb.1 hmb.2 hpb.1 hpb.2).1 he
        exact (hp _ hm').elim (fun h => h this.1.symm) (fun h => h this.2.symm)
      rw [paint, ih (acc := ((xorPixel inv acc.1 x' y' c').1, acc.2 || (xorPixel inv acc.1 x' y' c').2))
        (xorPixel_wf hw hpb.1 hpb.2) hbr hdr hm']
      simp only [xorPixel_other hne]

/-- The flag: some call met a nonzero pixel with a nonzero colour. -/
theorem paint_hit (hw : acc.1.wf = true) (hb : ∀ p ∈ ops, p.1 < 64 ∧ p.2.1 < 32)
    (hd : ops.Pairwise fun p q => p.1 ≠ q.1 ∨ p.2.1 ≠ q.2.1) :
    (paint inv ops acc).2 = true ↔
      acc.2 = true ∨ ∃ p ∈ ops, acc.1.get (displayOffset inv p.1 p.2.1) ≠ 0#32 ∧ p.2.2 ≠ 0#32 := by
  induction ops generalizing acc with
  | nil => simp [paint]
  | cons p rest ih =>
    have hbr : ∀ q ∈ rest, q.1 < 64 ∧ q.2.1 < 32 := fun q hq => hb q (List.mem_cons_of_mem _ hq)
    obtain ⟨hp, hdr⟩ := List.pairwise_cons.1 hd
    obtain ⟨x, y, c⟩ := p
    have hpb : x < 64 ∧ y < 32 := hb (x, y, c) List.mem_cons_self
    rw [paint, ih (acc := ((xorPixel inv acc.1 x y c).1, acc.2 || (xorPixel inv acc.1 x y c).2))
      (xorPixel_wf hw hpb.1 hpb.2) hbr hdr, Bool.or_eq_true, xorPixel_hit, or_assoc, List.exists_mem_cons_iff]
    refine or_congr_right (or_congr_right (exists_congr fun q => and_congr_right fun hq => ?_))
    have hne : displayOffset inv q.1 q.2.1 ≠ displayOffset inv x y := fun he => by
      have := (displayOffset_inj (hbr q hq).1 (hbr q hq).2 hpb.1 hpb.2).1 he
      exact (hp q hq).elim (fun h => h this.1.symm) (fun h => h this.2.symm)
    simp only [xorPixel_other hne]

/-- A covered pixel is XORed with `ON_COLOR`. -/
theorem blitSprite_covered {x y : Nat} (hw : fb.wf = true) (hl : rows.length ≤ 32) (h : spriteCovers rows x0 y0 x y) :
    (blitSprite inv fb x0 y0 rows).1.get (displayOffset inv x y) =
      fb.get (displayOffset inv x y) ^^^ 0xFFFFFFFF#32 := by
  obtain ⟨k, dx, hk, hdx, hx, hy, hbit⟩ := h
  rw [blitSprite, blitRows_eq]
  refine paint_self (acc := (fb, false)) hw (fun p hp => rowOps_bounds hp) (rowOps_distinct hl)
    (mem_rowOps.2 ⟨k, dx, hk, hdx, hx, by simpa using hy, ?_⟩)
  rw [spriteColor, hbit]
  rfl

/-- A pixel that is not covered keeps its value. -/
theorem blitSprite_uncovered {x y : Nat} (hw : fb.wf = true) (hl : rows.length ≤ 32) (hx : x < 64) (hy : y < 32)
    (h : ¬ spriteCovers rows x0 y0 x y) :
    (blitSprite inv fb x0 y0 rows).1.get (displayOffset inv x y) = fb.get (displayOffset inv x y) := by
  rw [blitSprite, blitRows_eq]
  by_cases hm : ∃ c, (x, y, c) ∈ rowOps x0 y0 0 rows
  · obtain ⟨c, hc⟩ := hm
    rw [paint_self (acc := (fb, false)) hw (fun p hp => rowOps_bounds hp) (rowOps_distinct hl) hc]
    obtain ⟨k, dx, hk, hdx, hx', hy', rfl⟩ := mem_rowOps.1 hc
    have hbit : (rows.getD k 0#8).getLsbD (7 - dx) = false := by
      rw [Bool.eq_false_iff]
      exact fun hb => h ⟨k, dx, hk, hdx, hx', by simpa using hy', hb⟩
    rw [spriteColor, hbit]
    exact BitVec.xor_zero
  · refine paint_other fun p hp he => hm ⟨p.2.2, ?_⟩
    have hb := rowOps_bounds hp
    obtain ⟨rfl, rfl⟩ := (displayOffset_inj hb.1 hb.2 hx hy).1 he
    exact hp

/-- Outside the 2048 pixels nothing changes. -/
theorem blitSprite_outside {o : Nat} (ho : 2048 ≤ o) : (blitSprite inv fb x0 y0 rows).1.get o = fb.get o := by
  rw [blitSprite, blitRows_eq]
  refine paint_other (acc := (fb, false)) fun p hp he => ?_
  have := displayOffset_lt (inv := inv) (rowOps_bounds hp).1 (rowOps_bounds hp).2
  omega

/-- The flag: some covered pixel was nonzero. -/
theorem blitSprite_hit (hw : fb.wf = true) (hl : rows.length ≤ 32) :
    (blitSprite inv fb x0 y0 rows).2 = true ↔
      ∃ x y, x < 64 ∧ y < 32 ∧ spriteCovers rows x0 y0 x y ∧ fb.get (displayOffset inv x y) ≠ 0#32 := by
  rw [blitSprite, blitRows_eq, paint_hit (acc := (fb, false)) hw (fun p hp => rowOps_bounds hp) (rowOps_distinct hl)]
  constructor
  · rintro (h | ⟨⟨x, y, c⟩, hp, hne, hc⟩)
    · cases h
    · have hb := rowOps_bounds hp
      obtain ⟨k, dx, hk, hdx, hx', hy', rfl⟩ := mem_rowOps.1 hp
      refine ⟨x, y, hb.1, hb.2, ⟨k, dx, hk, hdx, hx', by simpa using hy', ?_⟩, hne⟩
      by_contra hbit
      exact hc (by rw [spriteColor, if_neg hbit])
  · rintro ⟨x, y, hx, hy, ⟨k, dx, hk, hdx, hx', hy', hbit⟩, hne⟩
    refine .inr ⟨(x, y, 0xFFFFFFFF#32), mem_rowOps.2 ⟨k, dx, hk, hdx, hx', by simpa using hy', ?_⟩, hne, (by simp : (0xFFFFFFFF#32 : Word) ≠ 0#32)⟩
    rw [spriteColor, hbit]
    rfl

end Sys2Proof.Machine
end

