-- ==== Sys2Proof/Laws/Encoding.lean ====
section
/-! SUPPORT. The fields of a word built by each format (R86, R87), a word rebuilt from its fields, the formats by place
value, and that the operand types carry R100's bounds. -/

namespace Sys2Proof

@[simp] theorem toFin_regBits (r : Reg) : (regBits r).toFin = r := rfl

@[simp] theorem fieldOp_formatA (op : Nibble) (a : Addr) : fieldOp (formatA op a) = op :=
  BitVec.extractLsb'_append_eq_left

@[simp] theorem fieldAddr_formatA (op : Nibble) (a : Addr) : fieldAddr (formatA op a) = a :=
  BitVec.extractLsb'_append_eq_right

/-- Formats `XI`, `X`, `XY` and `XYN` are format `A` with the low twelve bits composed. -/
theorem fieldOp_append (op : Nibble) (a : Addr) : fieldOp (op ++ a : BitVec (4 + 12)) = op :=
  fieldOp_formatA op a

@[simp] theorem fieldOp_formatX (op : Nibble) (rx : Reg) (b : Byte) : fieldOp (formatX op rx b) = op :=
  fieldOp_append op _

@[simp] theorem fieldOp_formatXY (op : Nibble) (rx ry : Reg) (n : Nibble) : fieldOp (formatXY op rx ry n) = op :=
  fieldOp_append op _

@[simp] theorem fieldRx_formatX (op : Nibble) (rx : Reg) (b : Byte) : fieldRx (formatX op rx b) = rx := by
  have h : (formatX op rx b).extractLsb' 8 4 = regBits rx := by
    apply BitVec.eq_of_getLsbD_eq
    intro i hi
    simp only [formatX, BitVec.getLsbD_extractLsb', BitVec.getLsbD_append, hi]
    simp [show 8 + i < 12 by omega]
  rw [fieldRx, h, toFin_regBits]

@[simp] theorem fieldImm_formatX (op : Nibble) (rx : Reg) (b : Byte) : fieldImm (formatX op rx b) = b := by
  apply BitVec.eq_of_getLsbD_eq
  intro i hi
  simp only [fieldImm, formatX, BitVec.getLsbD_extractLsb', BitVec.getLsbD_append, hi]
  simp [show i < 12 by omega, hi]

@[simp] theorem fieldRx_formatXY (op : Nibble) (rx ry : Reg) (n : Nibble) : fieldRx (formatXY op rx ry n) = rx :=
  fieldRx_formatX op rx (regBits ry ++ n : Byte)

@[simp] theorem fieldRy_formatXY (op : Nibble) (rx ry : Reg) (n : Nibble) : fieldRy (formatXY op rx ry n) = ry := by
  have h : (formatXY op rx ry n).extractLsb' 4 4 = regBits ry := by
    apply BitVec.eq_of_getLsbD_eq
    intro i hi
    simp only [formatXY, BitVec.getLsbD_extractLsb', BitVec.getLsbD_append, hi]
    simp [show 4 + i < 12 by omega, show 4 + i < 8 by omega]
  rw [fieldRy, h, toFin_regBits]

@[simp] theorem fieldN_formatXY (op : Nibble) (rx ry : Reg) (n : Nibble) : fieldN (formatXY op rx ry n) = n := by
  apply BitVec.eq_of_getLsbD_eq
  intro i hi
  simp only [fieldN, formatXY, BitVec.getLsbD_extractLsb', BitVec.getLsbD_append, hi]
  simp [show i < 12 by omega, show i < 8 by omega, hi]

theorem regBits_fieldRx (w : Half) : regBits (fieldRx w) = w.extractLsb' 8 4 := rfl

theorem regBits_fieldRy (w : Half) : regBits (fieldRy w) = w.extractLsb' 4 4 := rfl

/-- Every word is format `A` of its own fields; the same for the other two formats. -/
theorem formatA_fields (w : Half) : formatA (fieldOp w) (fieldAddr w) = w := by
  apply BitVec.eq_of_getLsbD_eq
  intro i hi
  simp only [formatA, fieldOp, fieldAddr, BitVec.getLsbD_append, BitVec.getLsbD_extractLsb']
  interval_cases i <;> simp

theorem formatX_fields (w : Half) : formatX (fieldOp w) (fieldRx w) (fieldImm w) = w := by
  apply BitVec.eq_of_getLsbD_eq
  intro i hi
  simp only [formatX, regBits_fieldRx, fieldOp, fieldImm, BitVec.getLsbD_append, BitVec.getLsbD_extractLsb']
  interval_cases i <;> simp

theorem formatXY_fields (w : Half) : formatXY (fieldOp w) (fieldRx w) (fieldRy w) (fieldN w) = w := by
  apply BitVec.eq_of_getLsbD_eq
  intro i hi
  simp only [formatXY, regBits_fieldRx, regBits_fieldRy, fieldOp, fieldN, BitVec.getLsbD_append,
    BitVec.getLsbD_extractLsb']
  interval_cases i <;> simp

/-- The selectors as numbers. -/
theorem fieldOp_toNat (w : Half) : (fieldOp w).toNat = w.toNat / 4096 := by
  simp [fieldOp, BitVec.extractLsb'_toNat, Nat.shiftRight_eq_div_pow]
  omega

theorem fieldN_toNat (w : Half) : (fieldN w).toNat = w.toNat % 16 := by simp [fieldN]

theorem fieldImm_toNat (w : Half) : (fieldImm w).toNat = w.toNat % 256 := by simp [fieldImm]

/-- The formats by place value are the formats by fields. -/
theorem Machine.wordA_eq (op : Nat) (addr : Addr) : wordA op addr = formatA (BitVec.ofNat 4 op) addr := by
  apply BitVec.eq_of_toNat_eq
  simp only [wordA, formatA, BitVec.toNat_append, BitVec.toNat_ofNat]
  rw [← Nat.shiftLeft_add_eq_or_of_lt addr.isLt, Nat.shiftLeft_eq]
  have := addr.isLt
  omega

theorem Machine.wordX_eq (op : Nat) (rx : Reg) (b : Byte) : wordX op rx b = formatX (BitVec.ofNat 4 op) rx b := by
  have h12 : (regBits rx ++ b : Addr).toNat = rx.val * 256 + b.toNat := by
    rw [BitVec.toNat_append, ← Nat.shiftLeft_add_eq_or_of_lt b.isLt, Nat.shiftLeft_eq]
    rfl
  have h16 := wordA_eq op (regBits rx ++ b : Addr)
  rw [wordA, h12] at h16
  rw [wordX, Nat.add_assoc, h16]
  rfl

theorem Machine.wordXY_eq (op : Nat) (rx ry : Reg) (n : Nibble) :
    wordXY op rx ry n = formatXY (BitVec.ofNat 4 op) rx ry n := by
  have h8 : (regBits ry ++ n : Byte).toNat = ry.val * 16 + n.toNat := by
    rw [BitVec.toNat_append, ← Nat.shiftLeft_add_eq_or_of_lt n.isLt, Nat.shiftLeft_eq]
    rfl
  have h16 := wordX_eq op rx (regBits ry ++ n : Byte)
  rw [wordX, h8, ← Nat.add_assoc] at h16
  rw [wordXY, h16]
  rfl

/-- The operand types of `Instr` carry the bounds of R100. -/
theorem Instr.wellFormed_all (i : Instr) : i.wellFormed = true := by
  have hr (r : Reg) : regInRange r.val = true := decide_eq_true r.isLt
  have ha (a : Addr) : addrInRange a.toNat = true := decide_eq_true a.isLt
  have hb (b : Byte) : immInRange b.toNat = true := decide_eq_true b.isLt
  have hn (n : Nibble) : rowsInRange n.toNat = true := decide_eq_true n.isLt
  cases i <;> simp only [Instr.wellFormed, hr, ha, hb, hn, Bool.and_self]

end Sys2Proof
end

