-- ==== Sys2Proof/Laws/Memory.lean ====
section
/-! SUPPORT. The laws of main memory: one byte, blocks, the canonical form, and reset. -/

namespace Sys2Proof.Machine

variable {m : Memory} {a b n : Nat} {v : Byte} {bytes : List Byte}

@[simp] theorem Memory.read_nil : Memory.read [] a = resetByte a := rfl

theorem Memory.read_write_self (h : m.wf = true) : (m.write a v).read a = v := sparseGet_set_self h

theorem Memory.read_write_other (h : b ≠ a) : (m.write a v).read b = m.read b := sparseGet_set_other h

theorem Memory.write_wf (h : m.wf = true) (ha : a < 4096) : (m.write a v).wf = true :=
  sparseSet_wf h (Nat.zero_le _) ha

theorem Memory.read_writeBlock_other (h : b < a ∨ a + bytes.length ≤ b) : (m.writeBlock a bytes).read b = m.read b := by
  induction bytes generalizing m a with
  | nil => rfl
  | cons c rest ih =>
    rw [List.length_cons] at h
    rw [Memory.writeBlock, ih (by omega), Memory.read_write_other (by omega)]

theorem Memory.writeBlock_wf (h : m.wf = true) (ha : a + bytes.length ≤ 4096) : (m.writeBlock a bytes).wf = true := by
  induction bytes generalizing m a with
  | nil => exact h
  | cons c rest ih =>
    rw [List.length_cons] at ha
    exact ih (Memory.write_wf h (by omega)) (by omega)

theorem Memory.read_writeBlock_self (h : m.wf = true) (ha : a + bytes.length ≤ 4096) {k : Nat} (hk : k < bytes.length) :
    (m.writeBlock a bytes).read (a + k) = bytes[k] := by
  induction bytes generalizing m a k with
  | nil => simp at hk
  | cons c rest ih =>
    rw [List.length_cons] at ha hk
    cases k with
    | zero =>
      rw [Memory.writeBlock, Memory.read_writeBlock_other (by omega), Nat.add_zero, Memory.read_write_self h]
      rfl
    | succ k =>
      have := ih (m := m.write a c) (a := a + 1) (k := k) (Memory.write_wf h (by omega)) (by omega) (by omega)
      rw [Memory.writeBlock, List.getElem_cons_succ, ← this, show a + (k + 1) = a + 1 + k by omega]

@[simp] theorem Memory.length_readBlock : (m.readBlock a n).length = n := by
  induction n generalizing a with
  | zero => rfl
  | succ n ih => simp [Memory.readBlock, ih]

theorem Memory.getElem_readBlock {k : Nat} (hk : k < (m.readBlock a n).length) :
    (m.readBlock a n)[k] = m.read (a + k) := by
  induction n generalizing a k with
  | zero => simp [Memory.readBlock] at hk
  | succ n ih =>
    cases k with
    | zero => rfl
    | succ k => simp only [Memory.readBlock, List.getElem_cons_succ, ih]; congr 1; omega

theorem Memory.readBlock_congr {m' : Memory} (h : ∀ k, k < n → m.read (a + k) = m'.read (a + k)) :
    m.readBlock a n = m'.readBlock a n := by
  apply List.ext_getElem (by simp)
  intro k h1 h2
  rw [Memory.getElem_readBlock, Memory.getElem_readBlock]
  exact h k (by simpa using h1)

/-- The fetched word as a number: the byte at the lower address is the high one (R63). -/
theorem Memory.readWord_eq (m : Memory) (a : Nat) :
    m.readWord a = BitVec.ofNat 16 ((m.read a).toNat * 256 + (m.read (a + 1)).toNat) := by
  apply BitVec.eq_of_toNat_eq
  rw [Memory.readWord, BitVec.toNat_append, ← Nat.shiftLeft_add_eq_or_of_lt (BitVec.isLt _), Nat.shiftLeft_eq,
    BitVec.toNat_ofNat]
  have := (m.read a).isLt
  have := (m.read (a + 1)).isLt
  omega

/-- Equal contents are equal data. -/
theorem Memory.ext_of_read {m' : Memory} (h : m.wf = true) (h' : m'.wf = true) (he : ∀ a, m.read a = m'.read a) : m = m' :=
  sparse_ext h h' he

/-- Reset memory lists nothing: it holds the default font. -/
theorem State.reset_mem : State.reset.mem = [] := by decide

theorem State.new_mem_wf (p : Params) : (State.new p).mem.wf = true :=
  Memory.writeBlock_wf rfl (by simp)

end Sys2Proof.Machine
end

