-- ==== Sys2Proof/Laws/State.lean ====
section
/-! SUPPORT. One lemma per field per update, so that no proof unfolds a record update; and the register laws. -/

namespace Sys2Proof.Machine

variable (s : State) (r q : Reg) (b f : Byte) (a : Half) (bytes : List Byte)

@[simp] theorem State.setReg_i : (s.setReg r b).i = s.i := rfl
@[simp] theorem State.setReg_pc : (s.setReg r b).pc = s.pc := rfl
@[simp] theorem State.setReg_stack : (s.setReg r b).stack = s.stack := rfl
@[simp] theorem State.setReg_sp : (s.setReg r b).sp = s.sp := rfl
@[simp] theorem State.setReg_status : (s.setReg r b).status = s.status := rfl
@[simp] theorem State.setReg_cycles : (s.setReg r b).cycles = s.cycles := rfl
@[simp] theorem State.setReg_rng : (s.setReg r b).rng = s.rng := rfl
@[simp] theorem State.setReg_mem : (s.setReg r b).mem = s.mem := rfl
@[simp] theorem State.setReg_fb : (s.setReg r b).fb = s.fb := rfl
@[simp] theorem State.setReg_invertY : (s.setReg r b).invertY = s.invertY := rfl
@[simp] theorem State.setReg_keys : (s.setReg r b).keys = s.keys := rfl
@[simp] theorem State.setReg_dt : (s.setReg r b).dt = s.dt := rfl
@[simp] theorem State.setReg_st : (s.setReg r b).st = s.st := rfl
@[simp] theorem State.setReg_cpuHz : (s.setReg r b).cpuHz = s.cpuHz := rfl
@[simp] theorem State.setReg_acc : (s.setReg r b).acc = s.acc := rfl

@[simp] theorem State.setFlag_i : (s.setFlag f).i = s.i := rfl
@[simp] theorem State.setFlag_pc : (s.setFlag f).pc = s.pc := rfl
@[simp] theorem State.setFlag_stack : (s.setFlag f).stack = s.stack := rfl
@[simp] theorem State.setFlag_sp : (s.setFlag f).sp = s.sp := rfl
@[simp] theorem State.setFlag_status : (s.setFlag f).status = s.status := rfl
@[simp] theorem State.setFlag_cycles : (s.setFlag f).cycles = s.cycles := rfl
@[simp] theorem State.setFlag_rng : (s.setFlag f).rng = s.rng := rfl
@[simp] theorem State.setFlag_mem : (s.setFlag f).mem = s.mem := rfl
@[simp] theorem State.setFlag_fb : (s.setFlag f).fb = s.fb := rfl
@[simp] theorem State.setFlag_invertY : (s.setFlag f).invertY = s.invertY := rfl
@[simp] theorem State.setFlag_keys : (s.setFlag f).keys = s.keys := rfl
@[simp] theorem State.setFlag_dt : (s.setFlag f).dt = s.dt := rfl
@[simp] theorem State.setFlag_st : (s.setFlag f).st = s.st := rfl
@[simp] theorem State.setFlag_cpuHz : (s.setFlag f).cpuHz = s.cpuHz := rfl
@[simp] theorem State.setFlag_acc : (s.setFlag f).acc = s.acc := rfl

@[simp] theorem State.countCycle_v : s.countCycle.v = s.v := rfl
@[simp] theorem State.countCycle_i : s.countCycle.i = s.i := rfl
@[simp] theorem State.countCycle_pc : s.countCycle.pc = s.pc := rfl
@[simp] theorem State.countCycle_stack : s.countCycle.stack = s.stack := rfl
@[simp] theorem State.countCycle_sp : s.countCycle.sp = s.sp := rfl
@[simp] theorem State.countCycle_status : s.countCycle.status = s.status := rfl
@[simp] theorem State.countCycle_cycles : s.countCycle.cycles = s.cycles + 1#64 := rfl
@[simp] theorem State.countCycle_rng : s.countCycle.rng = s.rng := rfl
@[simp] theorem State.countCycle_mem : s.countCycle.mem = s.mem := rfl
@[simp] theorem State.countCycle_fb : s.countCycle.fb = s.fb := rfl
@[simp] theorem State.countCycle_invertY : s.countCycle.invertY = s.invertY := rfl
@[simp] theorem State.countCycle_keys : s.countCycle.keys = s.keys := rfl
@[simp] theorem State.countCycle_dt : s.countCycle.dt = s.dt := rfl
@[simp] theorem State.countCycle_st : s.countCycle.st = s.st := rfl
@[simp] theorem State.countCycle_cpuHz : s.countCycle.cpuHz = s.cpuHz := rfl
@[simp] theorem State.countCycle_acc : s.countCycle.acc = s.acc := rfl

@[simp] theorem State.setPc_v : (s.setPc a).v = s.v := rfl
@[simp] theorem State.setPc_i : (s.setPc a).i = s.i := rfl
@[simp] theorem State.setPc_stack : (s.setPc a).stack = s.stack := rfl
@[simp] theorem State.setPc_sp : (s.setPc a).sp = s.sp := rfl
@[simp] theorem State.setPc_status : (s.setPc a).status = s.status := rfl
@[simp] theorem State.setPc_cycles : (s.setPc a).cycles = s.cycles := rfl
@[simp] theorem State.setPc_rng : (s.setPc a).rng = s.rng := rfl
@[simp] theorem State.setPc_mem : (s.setPc a).mem = s.mem := rfl
@[simp] theorem State.setPc_fb : (s.setPc a).fb = s.fb := rfl
@[simp] theorem State.setPc_invertY : (s.setPc a).invertY = s.invertY := rfl
@[simp] theorem State.setPc_keys : (s.setPc a).keys = s.keys := rfl
@[simp] theorem State.setPc_dt : (s.setPc a).dt = s.dt := rfl
@[simp] theorem State.setPc_st : (s.setPc a).st = s.st := rfl
@[simp] theorem State.setPc_cpuHz : (s.setPc a).cpuHz = s.cpuHz := rfl
@[simp] theorem State.setPc_acc : (s.setPc a).acc = s.acc := rfl
@[simp] theorem State.setPc_pc : (s.setPc a).pc = a := rfl

@[simp] theorem State.storeBytes_v : (s.storeBytes bytes).v = s.v := rfl
@[simp] theorem State.storeBytes_i : (s.storeBytes bytes).i = s.i := rfl
@[simp] theorem State.storeBytes_pc : (s.storeBytes bytes).pc = s.pc := rfl
@[simp] theorem State.storeBytes_stack : (s.storeBytes bytes).stack = s.stack := rfl
@[simp] theorem State.storeBytes_sp : (s.storeBytes bytes).sp = s.sp := rfl
@[simp] theorem State.storeBytes_status : (s.storeBytes bytes).status = s.status := rfl
@[simp] theorem State.storeBytes_cycles : (s.storeBytes bytes).cycles = s.cycles := rfl
@[simp] theorem State.storeBytes_rng : (s.storeBytes bytes).rng = s.rng := rfl
@[simp] theorem State.storeBytes_mem : (s.storeBytes bytes).mem = s.mem.writeBlock s.base bytes := rfl
@[simp] theorem State.storeBytes_fb : (s.storeBytes bytes).fb = s.fb := rfl
@[simp] theorem State.storeBytes_invertY : (s.storeBytes bytes).invertY = s.invertY := rfl
@[simp] theorem State.storeBytes_keys : (s.storeBytes bytes).keys = s.keys := rfl
@[simp] theorem State.storeBytes_dt : (s.storeBytes bytes).dt = s.dt := rfl
@[simp] theorem State.storeBytes_st : (s.storeBytes bytes).st = s.st := rfl
@[simp] theorem State.storeBytes_cpuHz : (s.storeBytes bytes).cpuHz = s.cpuHz := rfl
@[simp] theorem State.storeBytes_acc : (s.storeBytes bytes).acc = s.acc := rfl

/-- A read after a write to the same register gives the value written. -/
@[simp] theorem State.reg_setReg_self : (s.setReg r b).reg r = b := by simp [State.reg, State.setReg]

/-- A write to a register leaves every other one alone. -/
theorem State.reg_setReg_other {r q : Reg} (h : q ≠ r) : (s.setReg r b).reg q = s.reg q := by
  have hv : r.val ≠ q.val := fun he => h (Fin.ext he.symm)
  simp [State.reg, State.setReg, Vector.getElem_set_ne, hv]

/-- `V[15]` after a flag write. -/
@[simp] theorem State.reg_setFlag_self : (s.setFlag f).reg 15 = f := State.reg_setReg_self s 15 f

/-- A flag write leaves every other register alone. -/
theorem State.reg_setFlag_other {q : Reg} (h : q ≠ 15) : (s.setFlag f).reg q = s.reg q :=
  State.reg_setReg_other s f h

@[simp] theorem State.reg_setPc : (s.setPc a).reg q = s.reg q := rfl
@[simp] theorem State.reg_countCycle : s.countCycle.reg q = s.reg q := rfl
@[simp] theorem State.reg_storeBytes : (s.storeBytes bytes).reg q = s.reg q := rfl

@[simp] theorem State.readByte_setReg (k : Nat) : (s.setReg r b).readByte k = s.readByte k := rfl
@[simp] theorem State.readByte_setFlag (k : Nat) : (s.setFlag f).readByte k = s.readByte k := rfl
@[simp] theorem State.readByte_setPc (k : Nat) : (s.setPc a).readByte k = s.readByte k := rfl
@[simp] theorem State.readByte_countCycle (k : Nat) : s.countCycle.readByte k = s.readByte k := rfl

end Sys2Proof.Machine
end

