-- ==== Sys2Proof/Laws/Ops.lean ====
section
/-! SUPPORT. What each shared operation can do, once for each: finishing, skips, the stack, stores, keys, the timers and the
divider. -/

namespace Sys2Proof.Machine

variable {s t : State} {f : Fault}

/-- Finishing always answers a next state; only `pc` differs (R203). -/
theorem finish_eq (next : Option Half) (s : State) : finish next s = .next (s.setPc (next.getD (s.pc + 2#16))) := rfl

/-- A skip always answers a next state: `pc + 4` on a true condition, else `pc + 2` (R110). -/
theorem skipWhen_eq (c : Bool) (s : State) :
    skipWhen c s = .next (s.setPc (if c = true then s.pc + 4#16 else s.pc + 2#16)) := by
  cases c <;> rfl

/-- A push succeeds exactly below depth 16 (R112). -/
theorem State.push_eq (a : Half) (h : s.sp.val < 16) :
    s.push a = some { s with stack := s.stack.set s.sp.val a h, sp := ⟨s.sp.val + 1, Nat.succ_lt_succ h⟩ } :=
  dif_pos h

theorem State.push_full (a : Half) (h : s.sp.val = 16) : s.push a = none := dif_neg (by simp [h])

/-- A pop of a non-empty stack gives the last live entry, which stays (R113). -/
theorem State.pop_eq {k : Nat} (hk : k < 16) (h : s.sp.val = k + 1) :
    s.pop = some (s.stack[k], { s with sp := ⟨k, by omega⟩ }) := by
  have hs : s.sp = ⟨k + 1, by omega⟩ := Fin.ext h
  simp [State.pop, hs]

theorem State.pop_empty (h : s.sp.val = 0) : s.pop = none := by
  have hs : s.sp = ⟨0, by omega⟩ := Fin.ext h
  simp [State.pop, hs]

theorem State.inRange_iff (s : State) (n : Nat) : s.inRange n = true ↔ s.i.toNat + n ≤ 4096 :=
  decide_eq_true_iff

/-- A store behind the range check: all bytes and `pc`, or a memory fault (R146). -/
theorem storeAtIndex_eq (bytes : List Byte) (s : State) :
    storeAtIndex bytes s =
      if s.i.toNat + bytes.length ≤ 4096 then
        .next { s with mem := s.mem.writeBlock s.i.toNat bytes, pc := s.pc + 2#16 }
      else .fault .memoryError := by
  unfold storeAtIndex
  split <;> rename_i h
  · rw [if_pos ((State.inRange_iff _ _).1 h)]; rfl
  · rw [if_neg (mt (State.inRange_iff _ _).2 h)]; rfl

@[simp] theorem length_bcdDigits (b : Byte) : (bcdDigits b).length = 3 := rfl

@[simp] theorem State.length_regBlock (s : State) (rx : Reg) : (s.regBlock rx).length = rx.val + 1 := by
  simp [State.regBlock]

theorem State.getElem_regBlock (s : State) (rx : Reg) {k : Nat} (hk : k < (s.regBlock rx).length) :
    (s.regBlock rx)[k] = s.v[k]'(by simp at hk; omega) := by
  simp [State.regBlock]

/-- LoadRegs' block: registers inside the block take the bytes, the others keep their values (R153). -/
theorem getElem_loadBlock (v : Vector Byte 16) (k : Nat) (bytes : List Byte) {j : Nat} (hj : j < 16) :
    (loadBlock v k bytes)[j] = if k ≤ j then bytes.getD (j - k) v[j] else v[j] := by
  induction bytes generalizing v k with
  | nil => simp [loadBlock]
  | cons b rest ih =>
    rw [loadBlock, ih, Vector.getElem_setIfInBounds]
    rcases Nat.lt_trichotomy k j with h | rfl | h
    · obtain ⟨d, rfl⟩ : ∃ d, j = k + 1 + d := ⟨j - (k + 1), by omega⟩
      rw [if_pos (by omega), if_neg (by omega), if_pos (by omega), show k + 1 + d - (k + 1) = d by omega,
        show k + 1 + d - k = d + 1 by omega, List.getD_cons_succ]
    · simp
    · rw [if_neg (by omega), if_neg (by omega), if_neg (by omega)]

/-- The lowest held key (R176). -/
theorem firstKeyPressed_some {keys : Half} {k : Nat} (h : firstKeyPressed keys = some k) :
    k < 16 ∧ keys.getLsbD k = true ∧ ∀ j, j < k → keys.getLsbD j = false := by
  unfold firstKeyPressed at h
  rw [List.find?_range_eq_some] at h
  exact ⟨by simpa using h.2.1, h.1, fun j hj => by simpa using h.2.2 j hj⟩

theorem flagByte_toNat (c : Bool) : (flagByte c).toNat = if c = true then 1 else 0 := by cases c <;> rfl

/-- A timer loses one, never below zero (R236). -/
theorem decrementTimer_toNat (t : Half) : (decrementTimer t).toNat = t.toNat - 1 := by
  unfold decrementTimer
  split <;> rename_i h
  · simp [h]
  · have : t.toNat ≠ 0 := fun h0 => h (BitVec.eq_of_toNat_eq (by simpa using h0))
    simp [BitVec.toNat_sub]; omega

theorem State.dividerFires_iff (s : State) : s.dividerFires = true ↔ s.cpuHz.toNat ≤ s.acc.toNat + 60 :=
  decide_eq_true_iff

/-- The divider step changes the timers and the accumulator and nothing else (R237). -/
theorem dividerStep_rest (s : State) :
    dividerStep s = { s with dt := (dividerStep s).dt, st := (dividerStep s).st, acc := (dividerStep s).acc } := by
  unfold dividerStep
  cases s.dividerFires <;> rfl

/-- When the divider fires, both timers lose one and `cpu_hz` is subtracted (R237). -/
theorem dividerStep_fires (h : s.cpuHz.toNat ≤ s.acc.toNat + 60) :
    dividerStep s = { peripheralTick s with acc := BitVec.ofNat 32 (s.acc.toNat + 60 - s.cpuHz.toNat) } := by
  have hf := (State.dividerFires_iff s).2 h
  simp [dividerStep, hf]

/-- When it does not, only the accumulator grows (R237). -/
theorem dividerStep_quiet (h : s.acc.toNat + 60 < s.cpuHz.toNat) :
    dividerStep s = { s with acc := BitVec.ofNat 32 (s.acc.toNat + 60) } := by
  have hf : s.dividerFires = false := by
    rw [Bool.eq_false_iff]; intro hc
    rw [State.dividerFires_iff] at hc; omega
  simp [dividerStep, hf]

end Sys2Proof.Machine
end

