-- ==== Sys2Proof/Laws/Exec.lean ====
section
/-! SUPPORT. What the instructions with several outcomes can do, once for each: the next state where they answer one, and
that it is the only way they do. The other meanings unfold to one record update. -/

namespace Sys2Proof.Machine

variable {s t : State} {rx ry : Reg} {n : Nibble} {addr : Addr} {bytes : List Byte}

/-- Call below depth 16 (R112). -/
theorem exec_call (addr : Addr) (s : State) (h : s.sp.val < 16) :
    exec (.call addr) s =
      .next { s with pc := addrOperand addr, stack := s.stack.set s.sp.val (s.pc + 2#16) h,
                     sp := ⟨s.sp.val + 1, Nat.succ_lt_succ h⟩ } := by
  simp only [exec, execCall, State.push_eq _ h, finish]
  rfl

theorem exec_call_next (ht : exec (.call addr) s = .next t) :
    ∃ h : s.sp.val < 16, t = { s with pc := addrOperand addr, stack := s.stack.set s.sp.val (s.pc + 2#16) h,
                                      sp := ⟨s.sp.val + 1, Nat.succ_lt_succ h⟩ } := by
  rcases Nat.lt_or_ge s.sp.val 16 with h | h
  · rw [exec_call addr s h] at ht
    cases ht
    exact ⟨h, rfl⟩
  · simp only [exec, execCall, State.push_full _ (show s.sp.val = 16 by omega), raiseFault] at ht
    cases ht

/-- Ret with a live entry (R113). -/
theorem exec_ret (s : State) {k : Nat} (hk : k < 16) (h : s.sp.val = k + 1) :
    exec .ret s = .next { s with pc := s.stack[k], sp := ⟨k, by omega⟩ } := by
  simp only [exec, execRet, State.pop_eq hk h, finish]
  rfl

theorem exec_ret_next (ht : exec .ret s = .next t) :
    ∃ k, ∃ hk : k < 16, s.sp.val = k + 1 ∧ t = { s with pc := s.stack[k], sp := ⟨k, by omega⟩ } := by
  rcases Nat.eq_zero_or_pos s.sp.val with h0 | h0
  · simp only [exec, execRet, State.pop_empty h0, raiseFault] at ht
    cases ht
  · obtain ⟨k, hk⟩ : ∃ k, s.sp.val = k + 1 := ⟨s.sp.val - 1, by omega⟩
    have hk' : k < 16 := by omega
    rw [exec_ret s hk' hk] at ht
    cases ht
    exact ⟨k, hk', hk, rfl⟩

/-- A store behind the range check, inverted (R146). -/
theorem storeAtIndex_next (ht : storeAtIndex bytes s = .next t) :
    s.i.toNat + bytes.length ≤ 4096 ∧ t = { s with mem := s.mem.writeBlock s.i.toNat bytes, pc := s.pc + 2#16 } := by
  rw [storeAtIndex_eq] at ht
  split at ht <;> cases ht
  exact ⟨by assumption, rfl⟩

theorem exec_loadRegs_next (ht : exec (.loadRegs rx) s = .next t) :
    s.i.toNat + (rx.val + 1) ≤ 4096 ∧
      t = { s with v := loadBlock s.v 0 (s.loadBytes (rx.val + 1)), pc := s.pc + 2#16 } := by
  simp only [exec, execLoadRegs] at ht
  split at ht <;> rename_i h <;> cases ht
  exact ⟨(State.inRange_iff _ _).1 h, rfl⟩

theorem exec_spriteLoc_next (ht : exec (.spriteLoc rx) s = .next t) :
    (s.reg rx).toNat < 16 ∧ t = { s with i := BitVec.ofNat 16 (5 * (s.reg rx).toNat), pc := s.pc + 2#16 } := by
  rw [exec, execSpriteLoc] at ht
  split at ht <;> rename_i h <;> cases ht
  exact ⟨by omega, rfl⟩

/-- WaitForKey with a key held and without one (R184). -/
theorem exec_waitForKey_next (ht : exec (.waitForKey rx) s = .next t) :
    (firstKeyPressed s.keys = none ∧ t = { s with status := .waitingForKey }) ∨
      ∃ k, firstKeyPressed s.keys = some k ∧
        t = { s.setReg rx (BitVec.ofNat 8 k) with status := .running, pc := s.pc + 2#16 } := by
  simp only [exec, execWaitForKey] at ht
  cases hk : firstKeyPressed s.keys <;> rw [hk] at ht <;> cases ht
  · exact .inl ⟨rfl, rfl⟩
  · exact .inr ⟨_, rfl, rfl⟩

/-- DrawSprite inside memory, or with no row (R167). The blit stays a name: unfolding it is never needed (Laws/Blit). -/
theorem exec_drawSprite (rx ry : Reg) (n : Nibble) (s : State) (h : n = 0#4 ∨ s.i.toNat + n.toNat ≤ 4096) :
    ∃ fb hit, blitSprite s.invertY s.fb (s.reg rx).toNat (s.reg ry).toNat (s.loadBytes n.toNat) = (fb, hit) ∧
      exec (.drawSprite rx ry n) s =
        .next { s with fb := fb, v := s.v.set 15 (collisionFlag hit), pc := s.pc + 2#16 } := by
  have hc : n.toNat = 0 ∨ s.inRange n.toNat = true := by
    rw [State.inRange_iff]
    exact h.imp_left fun h => by rw [h]; rfl
  rw [exec, execDrawSprite, if_pos hc]
  generalize blitSprite s.invertY s.fb (s.reg rx).toNat (s.reg ry).toNat (s.loadBytes n.toNat) = r
  exact ⟨r.1, r.2, rfl, rfl⟩

/-- DrawSprite past the end of memory (R146, R167). -/
theorem exec_drawSprite_fault (rx ry : Reg) (n : Nibble) (s : State) (h0 : n ≠ 0#4) (h : 4096 < s.i.toNat + n.toNat) :
    exec (.drawSprite rx ry n) s = .fault .memoryError := by
  have hn : n.toNat ≠ 0 := fun hn => h0 (BitVec.eq_of_toNat_eq (by simpa using hn))
  have hc : ¬ (n.toNat = 0 ∨ s.inRange n.toNat = true) := by
    rw [State.inRange_iff]
    omega
  rw [exec, execDrawSprite, if_neg hc]
  rfl

theorem exec_drawSprite_next (ht : exec (.drawSprite rx ry n) s = .next t) :
    (n = 0#4 ∨ s.i.toNat + n.toNat ≤ 4096) ∧
      ∃ fb hit, blitSprite s.invertY s.fb (s.reg rx).toNat (s.reg ry).toNat (s.loadBytes n.toNat) = (fb, hit) ∧
        t = { s with fb := fb, v := s.v.set 15 (collisionFlag hit), pc := s.pc + 2#16 } := by
  by_cases h : n = 0#4 ∨ s.i.toNat + n.toNat ≤ 4096
  · obtain ⟨fb, hit, hb, he⟩ := exec_drawSprite rx ry n s h
    rw [he] at ht
    cases ht
    exact ⟨h, fb, hit, hb, rfl⟩
  · push Not at h
    rw [exec_drawSprite_fault rx ry n s h.1 h.2] at ht
    cases ht

end Sys2Proof.Machine
end

