-- ==== Sys2Proof/Laws/PerInstr.lean ====
section
/-! SUPPORT. The per-instruction family `WordForm`: an instruction is well formed (R100), and its word agrees with its row of
the opcode table in the row's fixed bits (R93). -/

namespace Sys2Proof.Laws.WordForm

open Sys2Proof

/-- Well formed, and the word carries the fixed bits of the row. -/
def Statement (i : Instr) : Prop := i.wellFormed = true ∧ (rowOf i).accepts (encode i) = true

/-- The fixed bits of a word of format `A` under the mask 0xF000. -/
theorem accepts_of_op {w : Half} {m : String} {op : Nibble} (h : fieldOp w = op) :
    OpcodeRow.accepts ⟨m, op ++ 0#12, 0xF000#16⟩ w = true := by
  subst h
  rw [OpcodeRow.accepts, beq_iff_eq]
  apply BitVec.eq_of_getLsbD_eq
  intro i hi
  simp only [fieldOp, BitVec.getLsbD_and, BitVec.getLsbD_append, BitVec.getLsbD_extractLsb', BitVec.getLsbD_zero]
  interval_cases i <;> simp

/-- The fixed bits of a word of format `XY` under the mask 0xF00F. -/
theorem accepts_of_sub4 {w : Half} {m : String} {op sub : Nibble} (h : fieldOp w = op) (hs : fieldN w = sub) :
    OpcodeRow.accepts ⟨m, op ++ (0#8 ++ sub : Addr), 0xF00F#16⟩ w = true := by
  subst h hs
  rw [OpcodeRow.accepts, beq_iff_eq]
  apply BitVec.eq_of_getLsbD_eq
  intro i hi
  simp only [fieldOp, fieldN, BitVec.getLsbD_and, BitVec.getLsbD_append, BitVec.getLsbD_extractLsb', BitVec.getLsbD_zero]
  interval_cases i <;> simp

/-- The fixed bits of a word of format `X` under the mask 0xF0FF. -/
theorem accepts_of_sub8 {w : Half} {m : String} {op : Nibble} {sub : Byte} (h : fieldOp w = op) (hs : fieldImm w = sub) :
    OpcodeRow.accepts ⟨m, op ++ (0#4 ++ sub : Addr), 0xF0FF#16⟩ w = true := by
  subst h hs
  rw [OpcodeRow.accepts, beq_iff_eq]
  apply BitVec.eq_of_getLsbD_eq
  intro i hi
  simp only [fieldOp, fieldImm, BitVec.getLsbD_and, BitVec.getLsbD_append, BitVec.getLsbD_extractLsb', BitVec.getLsbD_zero]
  interval_cases i <;> simp

theorem cls : Statement .cls := ⟨rfl, rfl⟩
theorem ret : Statement .ret := ⟨rfl, rfl⟩
theorem jump (addr) : Statement (.jump addr) := ⟨Instr.wellFormed_all _, accepts_of_op (fieldOp_formatA 0x1#4 addr)⟩
theorem call (addr) : Statement (.call addr) := ⟨Instr.wellFormed_all _, accepts_of_op (fieldOp_formatA 0x2#4 addr)⟩
theorem skipEqI (rx imm) : Statement (.skipEqI rx imm) :=
  ⟨Instr.wellFormed_all _, accepts_of_op (fieldOp_formatX 0x3#4 rx imm)⟩
theorem skipNeqI (rx imm) : Statement (.skipNeqI rx imm) :=
  ⟨Instr.wellFormed_all _, accepts_of_op (fieldOp_formatX 0x4#4 rx imm)⟩
theorem skipEq (rx ry) : Statement (.skipEq rx ry) :=
  ⟨Instr.wellFormed_all _, accepts_of_sub4 (fieldOp_formatXY 0x5#4 rx ry 0#4) (fieldN_formatXY _ rx ry 0#4)⟩
theorem loadI (rx imm) : Statement (.loadI rx imm) :=
  ⟨Instr.wellFormed_all _, accepts_of_op (fieldOp_formatX 0x6#4 rx imm)⟩
theorem addI (rx imm) : Statement (.addI rx imm) :=
  ⟨Instr.wellFormed_all _, accepts_of_op (fieldOp_formatX 0x7#4 rx imm)⟩
theorem move (rx ry) : Statement (.move rx ry) :=
  ⟨Instr.wellFormed_all _, accepts_of_sub4 (fieldOp_formatXY 0x8#4 rx ry 0#4) (fieldN_formatXY _ rx ry 0#4)⟩
theorem or (rx ry) : Statement (.or rx ry) :=
  ⟨Instr.wellFormed_all _, accepts_of_sub4 (fieldOp_formatXY 0x8#4 rx ry 1#4) (fieldN_formatXY _ rx ry 1#4)⟩
theorem and (rx ry) : Statement (.and rx ry) :=
  ⟨Instr.wellFormed_all _, accepts_of_sub4 (fieldOp_formatXY 0x8#4 rx ry 2#4) (fieldN_formatXY _ rx ry 2#4)⟩
theorem xor (rx ry) : Statement (.xor rx ry) :=
  ⟨Instr.wellFormed_all _, accepts_of_sub4 (fieldOp_formatXY 0x8#4 rx ry 3#4) (fieldN_formatXY _ rx ry 3#4)⟩
theorem add (rx ry) : Statement (.add rx ry) :=
  ⟨Instr.wellFormed_all _, accepts_of_sub4 (fieldOp_formatXY 0x8#4 rx ry 4#4) (fieldN_formatXY _ rx ry 4#4)⟩
theorem sub (rx ry) : Statement (.sub rx ry) :=
  ⟨Instr.wellFormed_all _, accepts_of_sub4 (fieldOp_formatXY 0x8#4 rx ry 5#4) (fieldN_formatXY _ rx ry 5#4)⟩
theorem shr (rx ry) : Statement (.shr rx ry) :=
  ⟨Instr.wellFormed_all _, accepts_of_sub4 (fieldOp_formatXY 0x8#4 rx ry 6#4) (fieldN_formatXY _ rx ry 6#4)⟩
theorem subN (rx ry) : Statement (.subN rx ry) :=
  ⟨Instr.wellFormed_all _, accepts_of_sub4 (fieldOp_formatXY 0x8#4 rx ry 7#4) (fieldN_formatXY _ rx ry 7#4)⟩
theorem shl (rx ry) : Statement (.shl rx ry) :=
  ⟨Instr.wellFormed_all _, accepts_of_sub4 (fieldOp_formatXY 0x8#4 rx ry 0xE#4) (fieldN_formatXY _ rx ry 0xE#4)⟩
theorem skipNeq (rx ry) : Statement (.skipNeq rx ry) :=
  ⟨Instr.wellFormed_all _, accepts_of_sub4 (fieldOp_formatXY 0x9#4 rx ry 0#4) (fieldN_formatXY _ rx ry 0#4)⟩
theorem loadA (addr) : Statement (.loadA addr) := ⟨Instr.wellFormed_all _, accepts_of_op (fieldOp_formatA 0xA#4 addr)⟩
theorem jumpV0 (addr) : Statement (.jumpV0 addr) := ⟨Instr.wellFormed_all _, accepts_of_op (fieldOp_formatA 0xB#4 addr)⟩
theorem rndAnd (rx imm) : Statement (.rndAnd rx imm) :=
  ⟨Instr.wellFormed_all _, accepts_of_op (fieldOp_formatX 0xC#4 rx imm)⟩
theorem drawSprite (rx ry n) : Statement (.drawSprite rx ry n) :=
  ⟨Instr.wellFormed_all _, accepts_of_op (fieldOp_formatXY 0xD#4 rx ry n)⟩
theorem skipKeyPressed (rx) : Statement (.skipKeyPressed rx) :=
  ⟨Instr.wellFormed_all _, accepts_of_sub8 (fieldOp_formatX 0xE#4 rx 0x9E#8) (fieldImm_formatX _ rx 0x9E#8)⟩
theorem skipKeyNPressed (rx) : Statement (.skipKeyNPressed rx) :=
  ⟨Instr.wellFormed_all _, accepts_of_sub8 (fieldOp_formatX 0xE#4 rx 0xA1#8) (fieldImm_formatX _ rx 0xA1#8)⟩
theorem getDelay (rx) : Statement (.getDelay rx) :=
  ⟨Instr.wellFormed_all _, accepts_of_sub8 (fieldOp_formatX 0xF#4 rx 0x07#8) (fieldImm_formatX _ rx 0x07#8)⟩
theorem waitForKey (rx) : Statement (.waitForKey rx) :=
  ⟨Instr.wellFormed_all _, accepts_of_sub8 (fieldOp_formatX 0xF#4 rx 0x0A#8) (fieldImm_formatX _ rx 0x0A#8)⟩
theorem setDelay (rx) : Statement (.setDelay rx) :=
  ⟨Instr.wellFormed_all _, accepts_of_sub8 (fieldOp_formatX 0xF#4 rx 0x15#8) (fieldImm_formatX _ rx 0x15#8)⟩
theorem setSound (rx) : Statement (.setSound rx) :=
  ⟨Instr.wellFormed_all _, accepts_of_sub8 (fieldOp_formatX 0xF#4 rx 0x18#8) (fieldImm_formatX _ rx 0x18#8)⟩
theorem addIndex (rx) : Statement (.addIndex rx) :=
  ⟨Instr.wellFormed_all _, accepts_of_sub8 (fieldOp_formatX 0xF#4 rx 0x1E#8) (fieldImm_formatX _ rx 0x1E#8)⟩
theorem spriteLoc (rx) : Statement (.spriteLoc rx) :=
  ⟨Instr.wellFormed_all _, accepts_of_sub8 (fieldOp_formatX 0xF#4 rx 0x29#8) (fieldImm_formatX _ rx 0x29#8)⟩
theorem storeBCD (rx) : Statement (.storeBCD rx) :=
  ⟨Instr.wellFormed_all _, accepts_of_sub8 (fieldOp_formatX 0xF#4 rx 0x33#8) (fieldImm_formatX _ rx 0x33#8)⟩
theorem storeRegs (rx) : Statement (.storeRegs rx) :=
  ⟨Instr.wellFormed_all _, accepts_of_sub8 (fieldOp_formatX 0xF#4 rx 0x55#8) (fieldImm_formatX _ rx 0x55#8)⟩
theorem loadRegs (rx) : Statement (.loadRegs rx) :=
  ⟨Instr.wellFormed_all _, accepts_of_sub8 (fieldOp_formatX 0xF#4 rx 0x65#8) (fieldImm_formatX _ rx 0x65#8)⟩

end Sys2Proof.Laws.WordForm
end

