-- ==== Sys2Proof/Laws/Rng.lean ====
section
/-! SUPPORT. The generator's step, field by field (R181), and the increment after RngReset (R180). -/

namespace Sys2Proof.Machine

variable (g : Rng) (seed sequence : Long)

@[simp] theorem rngGenerate_state : (rngGenerate g).2.state = Config.rngMult * g.state + g.inc := rfl

@[simp] theorem rngGenerate_inc : (rngGenerate g).2.inc = g.inc := rfl

theorem rngGenerate_output : (rngGenerate g).1 = rngOutput g.state := rfl

theorem rngReset_inc : (rngReset seed sequence).inc = (sequence <<< 1) ||| 1#64 := rfl

end Sys2Proof.Machine
end

