-- ==== Sys2Proof/Laws/Step.lean ====
section
/-! SUPPORT. What a fetch, a Tick and a step can do: one inversion lemma for each. -/

namespace Sys2Proof.Machine

variable {s t : State} {i : Instr} {f : Fault}

/-- A fetch gives an instruction exactly when both bytes exist and their word decodes (R200 to R202). -/
theorem fetchInstr_ok : fetchInstr s = .ok i ↔ s.pc.toNat < 4095 ∧ decode (s.mem.readWord s.pc.toNat) = some i := by
  unfold fetchInstr fetchWord
  by_cases h : 4095 ≤ s.pc.toNat
  · simp [h]
  · simp only [h, if_false]
    have : s.pc.toNat < 4095 := by omega
    cases hd : decode (s.mem.readWord s.pc.toNat) <;> simp [this]

/-- A fetch fails with MemoryError or InvalidInstruction, in that order (R201, R202, R220). -/
theorem fetchInstr_error : fetchInstr s = .error f ↔
    (4095 ≤ s.pc.toNat ∧ f = .memoryError) ∨
      (s.pc.toNat < 4095 ∧ decode (s.mem.readWord s.pc.toNat) = none ∧ f = .invalidInstruction) := by
  unfold fetchInstr fetchWord
  by_cases h : 4095 ≤ s.pc.toNat
  · simp [h, show ¬ s.pc.toNat < 4095 by omega, eq_comm]
  · simp only [h, if_false]
    have : s.pc.toNat < 4095 := by omega
    cases hd : decode (s.mem.readWord s.pc.toNat) <;> simp [this, eq_comm]

/-- What a Tick can answer (R200): nothing happens in Halted; else a fetch fault, or what the fetched instruction answers. -/
theorem tick_cases (s : State) :
    (s.status = .halted ∧ tick s = .next s) ∨
      (s.status ≠ .halted ∧ ∃ f, fetchInstr s = .error f ∧ tick s = .fault f) ∨
      (s.status ≠ .halted ∧ ∃ i, fetchInstr s = .ok i ∧ tick s = exec i s.countCycle) := by
  have hf : fetchInstr s.countCycle = fetchInstr s := rfl
  unfold tick
  by_cases h : s.status = .halted
  · exact .inl ⟨h, if_pos h⟩
  · rw [if_neg h, hf]
    cases fetchInstr s with
    | error f => exact .inr (.inl ⟨h, f, rfl, rfl⟩)
    | ok i => exact .inr (.inr ⟨h, i, rfl, rfl⟩)

/-- A step that answers a next state is a Tick that did, followed by its divider step (R238). -/
theorem step_next : step s = .next t ↔ ∃ u, tick s = .next u ∧ t = dividerStep u := by
  unfold step tickAndDivide
  cases tick s <;> simp [eq_comm]

/-- A step faults exactly when its Tick does; no divider step follows (R238). -/
theorem step_fault : step s = .fault f ↔ tick s = .fault f := by
  unfold step tickAndDivide
  cases tick s <;> simp

/-- A step refuses exactly when its Tick does. -/
theorem step_refused {r : Refusal} : step s = .refused r ↔ tick s = .refused r := by
  unfold step tickAndDivide
  cases tick s <;> simp

/-- Where a step's next state comes from: a halted Cpu, or the fetched instruction's own next state. -/
theorem step_next_cases (h : step s = .next t) :
    (s.status = .halted ∧ t = dividerStep s) ∨
      (s.status ≠ .halted ∧ ∃ i u, s.pc.toNat < 4095 ∧ decode (s.mem.readWord s.pc.toNat) = some i ∧
        exec i s.countCycle = .next u ∧ t = dividerStep u) := by
  obtain ⟨u, hu, rfl⟩ := step_next.1 h
  rcases tick_cases s with ⟨hs, ht⟩ | ⟨hs, f, hf, ht⟩ | ⟨hs, i, hi, ht⟩
  · rw [ht] at hu
    cases hu
    exact .inl ⟨hs, rfl⟩
  · rw [ht] at hu
    cases hu
  · rw [ht] at hu
    obtain ⟨hp, hd⟩ := fetchInstr_ok.1 hi
    exact .inr ⟨hs, i, u, hp, hd, hu, rfl⟩

/-- The divider step is a peripheral tick when it fires, else none, and sets the accumulator (R237). -/
theorem dividerStep_eq (s : State) :
    dividerStep s = { (if s.dividerFires then peripheralTick s else s) with acc := (dividerStep s).acc } := by
  unfold dividerStep
  cases s.dividerFires <;> rfl

/-- The first turn's share of the count. -/
theorem ticksFired_succ {k : Nat} (h : tick s = .next t) :
    ticksFired (k + 1) s = (if t.dividerFires then 1 else 0) + ticksFired k (dividerStep t) := by
  rw [ticksFired, h]

end Sys2Proof.Machine
end

