-- ==== Sys2Proof/Tests/Slice0.lean ====
section
/-! SUPPORT. Tests on fixed values, each expected value from spec/95_test_vectors.md (the vector's name stands in the
docstring), and the witnesses that the hypotheses of the statements can be met. -/

namespace Sys2Proof.Tests

open Sys2Proof.Machine

/-! ## Well-formedness: each check refuses an ill-formed value (R100, R260, R262) -/

theorem test_wellFormed_register : regInRange 15 = true ∧ regInRange 16 = false := by decide
theorem test_wellFormed_address : addrInRange 4095 = true ∧ addrInRange 4096 = false := by decide
theorem test_wellFormed_immediate : immInRange 255 = true ∧ immInRange 256 = false := by decide
theorem test_wellFormed_rows : rowsInRange 15 = true ∧ rowsInRange 16 = false := by decide
theorem test_wellFormed_instr : (Instr.drawSprite 15 15 15).wellFormed = true ∧ (Instr.jump 4095).wellFormed = true := by decide

/-- The instance of the spec's vectors with another rate. -/
def paramsAt (hz : Word) : Params :=
  { cpuHz := hz, rngSeed := 0#64, rngSeq := 42#64, invertY := false, font := Config.fontVector }

theorem test_wellFormed_rate : (paramsAt 60#32).wellFormed = true ∧ (paramsAt 59#32).wellFormed = false := by decide

theorem test_wellFormed_rom :
    romFits (List.replicate 3584 0#8) = true ∧ romFits (List.replicate 3585 0#8) = false :=
  ⟨decide_eq_true (by rw [List.length_replicate]), decide_eq_false (by rw [List.length_replicate]; decide)⟩

/-! ## Decoding: a word of every row (95 section 2.0, S1 to S6) -/

theorem test_decode_groups_0_to_4 :
    decode 0x00E0#16 = some .cls ∧ decode 0x00EE#16 = some .ret ∧ decode 0x1234#16 = some (.jump 0x234) ∧
    decode 0x2ABC#16 = some (.call 0xABC) ∧ decode 0x3A42#16 = some (.skipEqI 10 0x42) ∧
    decode 0x4A42#16 = some (.skipNeqI 10 0x42) := by decide

theorem test_decode_groups_5_to_7_and_9 :
    decode 0x5AB0#16 = some (.skipEq 10 11) ∧ decode 0x6A42#16 = some (.loadI 10 0x42) ∧
    decode 0x7A42#16 = some (.addI 10 0x42) ∧ decode 0x9AB0#16 = some (.skipNeq 10 11) := by decide

theorem test_decode_group_8 :
    decode 0x8AB0#16 = some (.move 10 11) ∧ decode 0x8AB1#16 = some (.or 10 11) ∧ decode 0x8AB2#16 = some (.and 10 11) ∧
    decode 0x8AB3#16 = some (.xor 10 11) ∧ decode 0x8014#16 = some (.add 0 1) ∧ decode 0x8AB5#16 = some (.sub 10 11) ∧
    decode 0x8AB6#16 = some (.shr 10 11) ∧ decode 0x8AB7#16 = some (.subN 10 11) ∧
    decode 0x8ABE#16 = some (.shl 10 11) := by decide

theorem test_decode_groups_A_to_E :
    decode 0xA123#16 = some (.loadA 0x123) ∧ decode 0xB123#16 = some (.jumpV0 0x123) ∧
    decode 0xCA42#16 = some (.rndAnd 10 0x42) ∧ decode 0xDAB5#16 = some (.drawSprite 10 11 5) ∧
    decode 0xEA9E#16 = some (.skipKeyPressed 10) ∧ decode 0xEAA1#16 = some (.skipKeyNPressed 10) := by decide

theorem test_decode_group_F :
    decode 0xFA07#16 = some (.getDelay 10) ∧ decode 0xFA0A#16 = some (.waitForKey 10) ∧
    decode 0xFA15#16 = some (.setDelay 10) ∧ decode 0xFA18#16 = some (.setSound 10) ∧
    decode 0xFA1E#16 = some (.addIndex 10) ∧ decode 0xFA29#16 = some (.spriteLoc 10) ∧
    decode 0xFA33#16 = some (.storeBCD 10) ∧ decode 0xF055#16 = some (.storeRegs 0) ∧
    decode 0xFA65#16 = some (.loadRegs 10) := by decide

theorem test_decode_illegal :
    ([0x00E1, 0x00EF, 0x0000, 0x01E0, 0x0FFF, 0x5001, 0x5ABF, 0x8018, 0x8AB9, 0x8ABA, 0x8ABB, 0x8ABC, 0x8ABD, 0x8ABF,
      0x9AB1, 0xEA9F, 0xEA00, 0xEAA0, 0xFA00, 0xFA75, 0xFA85, 0xFFFF].map fun w : Nat => decode (BitVec.ofNat 16 w)) =
      List.replicate 22 none := by decide

theorem test_decodeBytes :
    decodeBytes [0x80#8, 0x14#8, 0x77#8] = .ok (.add 0 1, [0x77#8]) ∧
    decodeBytes [0x80#8] = .error .truncated ∧
    decodeBytes [0x50#8, 0x01#8] = .error (.illegalWord 0x5001#16) := by decide

theorem test_decodeTableWord : decodeTableWord 16 0xDAB5 = some (.drawSprite 10 11 5) ∧ decodeTableWord 16 0x5001 = none := by
  decide

/-! ## Single steps -/

/-- The fresh instance of the vectors: 500 Hz, seed 0, sequence 42. -/
def base : State := State.new (paramsAt 500#32)

/-- Registers as listed, the others 0. -/
def regs (l : List (Reg × Byte)) : Vector Byte 16 :=
  l.foldl (fun v p => v.set p.1.val p.2) (Vector.replicate 16 0#8)

/-- The step on the word placed at `pc` gives a next state with property `p`. -/
def nextHas (w : Nat) (s : State) (p : State → Bool) : Bool :=
  match step (s.withFetchWord 16 w) with
  | .next t => p t
  | .fault _ => false
  | .refused _ => false

/-- The step on the word placed at `pc` faults so. -/
def faultsWith (w : Nat) (s : State) (f : Fault) : Bool :=
  match step (s.withFetchWord 16 w) with
  | .next _ => false
  | .fault g => decide (f = g)
  | .refused _ => false

/-- Vectors T1 and T2. -/
theorem test_jump : nextHas 0x1234 base (fun t => t.pc == 0x234#16) = true ∧
    nextHas 0x1200 base (fun t => t.pc == 0x200#16 && t.cycles == 1#64) = true := by decide

/-- Vectors T4 and T6. -/
theorem test_call : nextHas 0x2210 { base with pc := 0x204#16 }
      (fun t => t.pc == 0x210#16 && t.sp == 1 && t.stack[0] == 0x206#16) = true ∧
    nextHas 0x2ABC { base with pc := 0xFFE#16 } (fun t => t.pc == 0xABC#16 && t.stack[0] == 0x1000#16) = true := by decide

/-- Vector T5. -/
theorem test_call_full : faultsWith 0x2300 { base with pc := 0x204#16, sp := 16 } .stackOverflow = true := by decide

/-- Vectors T7 and T9: entry 15 holds 0x21E. -/
theorem test_ret : nextHas 0x00EE { base with pc := 0x212#16, sp := 1, stack := base.stack.set 0 0x206#16 }
      (fun t => t.pc == 0x206#16 && t.sp == 0 && t.stack[0] == 0x206#16) = true ∧
    nextHas 0x00EE { base with pc := 0x300#16, sp := 16, stack := base.stack.set 15 0x21E#16 }
      (fun t => t.pc == 0x21E#16 && t.sp == 15) = true := by decide

/-- Vector T8. -/
theorem test_ret_empty : faultsWith 0x00EE { base with pc := 0x212#16 } .popEmptyStack = true := by decide

/-- Vectors T10 and T11. -/
theorem test_jumpV0 : nextHas 0xB300 { base with v := regs [(0, 4#8)] } (fun t => t.pc == 0x304#16) = true ∧
    nextHas 0xBFFF { base with v := regs [(0, 0xFF#8)] } (fun t => t.pc == 0x10FE#16) = true := by decide

/-- Vectors T14 and T15. -/
theorem test_skipEqI : nextHas 0x3000 { base with pc := 0x208#16, v := regs [(0, 4#8)] } (fun t => t.pc == 0x20A#16) = true ∧
    nextHas 0x3FAB { base with pc := 0xFFE#16, v := regs [(15, 0xAB#8)] } (fun t => t.pc == 0x1002#16) = true := by decide

/-- Vectors T16 and T17. -/
theorem test_skipNeqI : nextHas 0x4311 { base with pc := 0x300#16, v := regs [(3, 0x10#8)] } (fun t => t.pc == 0x304#16) = true ∧
    nextHas 0x4310 { base with pc := 0x300#16, v := regs [(3, 0x10#8)] } (fun t => t.pc == 0x302#16) = true := by decide

/-- Vectors T18 and T19. -/
theorem test_skipEq :
    nextHas 0x5120 { base with pc := 0x220#16, v := regs [(1, 0x7F#8), (2, 0x7F#8)] } (fun t => t.pc == 0x224#16) = true ∧
    nextHas 0x5120 { base with pc := 0x220#16, v := regs [(1, 0x7F#8), (2, 0x80#8)] } (fun t => t.pc == 0x222#16) = true := by
  decide

/-- Vectors T21 and T22. -/
theorem test_skipNeq :
    nextHas 0x9120 { base with pc := 0x220#16, v := regs [(1, 1#8), (2, 2#8)] } (fun t => t.pc == 0x224#16) = true ∧
    nextHas 0x9120 { base with pc := 0x220#16, v := regs [(1, 2#8), (2, 2#8)] } (fun t => t.pc == 0x222#16) = true := by decide

/-- Vectors A1 and A2. -/
theorem test_loadI : nextHas 0x6005 base (fun t => t.reg 0 == 5#8 && t.pc == 0x202#16) = true ∧
    nextHas 0x6FAA base (fun t => t.reg 15 == 0xAA#8) = true := by decide

/-- Vectors A3 and A4. -/
theorem test_addI : nextHas 0x70FF { base with v := regs [(0, 5#8), (15, 1#8)] } (fun t => t.reg 0 == 4#8 && t.reg 15 == 1#8) = true ∧
    nextHas 0x7202 { base with v := regs [(2, 0xFF#8)] } (fun t => t.reg 2 == 1#8 && t.reg 15 == 0#8) = true := by decide

/-- Vectors A5 and A5b. -/
theorem test_move : nextHas 0x8EF0 { base with v := regs [(15, 1#8)] } (fun t => t.reg 14 == 1#8 && t.reg 15 == 1#8) = true ∧
    nextHas 0x8F30 { base with v := regs [(3, 0x77#8)] } (fun t => t.reg 15 == 0x77#8) = true := by decide

/-- Vectors A6a, A6b, A6c, A6d. -/
theorem test_logic :
    nextHas 0x8121 { base with v := regs [(1, 0x0F#8), (2, 0xF0#8), (15, 1#8)] }
      (fun t => t.reg 1 == 0xFF#8 && t.reg 15 == 1#8) = true ∧
    nextHas 0x8122 { base with v := regs [(1, 0x3C#8), (2, 0x0F#8)] } (fun t => t.reg 1 == 0x0C#8) = true ∧
    nextHas 0x8123 { base with v := regs [(1, 0xFF#8), (2, 0x0F#8)] } (fun t => t.reg 1 == 0xF0#8) = true ∧
    nextHas 0x8113 { base with v := regs [(1, 0x5A#8)] } (fun t => t.reg 1 == 0#8) = true := by decide

/-- Vectors A7c and A7e. -/
theorem test_add :
    nextHas 0x8014 { base with v := regs [(0, 0xFE#8), (1, 1#8), (15, 1#8)] } (fun t => t.reg 0 == 0xFF#8 && t.reg 15 == 0#8) = true ∧
    nextHas 0x8F14 { base with v := regs [(15, 0xF0#8), (1, 0x20#8)] } (fun t => t.reg 15 == 1#8) = true := by decide

/-- Vectors A8 and A9. -/
theorem test_sub :
    nextHas 0x8015 { base with v := regs [(0, 5#8), (1, 10#8)] } (fun t => t.reg 0 == 0xFB#8 && t.reg 15 == 0#8) = true ∧
    nextHas 0x8015 { base with v := regs [(0, 7#8), (1, 7#8), (15, 1#8)] } (fun t => t.reg 0 == 0#8 && t.reg 15 == 0#8) = true := by
  decide

/-- Vectors A12 and A14. -/
theorem test_subN :
    nextHas 0x8127 { base with v := regs [(1, 5#8), (2, 10#8)] } (fun t => t.reg 1 == 5#8 && t.reg 15 == 1#8) = true ∧
    nextHas 0x81F7 { base with v := regs [(1, 1#8), (15, 5#8)] } (fun t => t.reg 1 == 4#8 && t.reg 15 == 1#8) = true := by decide

/-- Vectors A15c and A17. -/
theorem test_shr :
    nextHas 0x83A6 { base with v := regs [(3, 0xFF#8), (10, 0x12#8)] }
      (fun t => t.reg 3 == 0x7F#8 && t.reg 15 == 1#8 && t.reg 10 == 0x12#8) = true ∧
    nextHas 0x8F06 { base with v := regs [(15, 3#8)] } (fun t => t.reg 15 == 0#8) = true := by decide

/-- Vectors A16 and A19. -/
theorem test_shl :
    nextHas 0x830E { base with v := regs [(3, 0x81#8)] } (fun t => t.reg 3 == 2#8 && t.reg 15 == 1#8) = true ∧
    nextHas 0x8F0E { base with v := regs [(15, 0x80#8)] } (fun t => t.reg 15 == 2#8) = true := by decide

/-- Vectors M2, M4 and M5. -/
theorem test_index :
    nextHas 0xAFFF base (fun t => t.i == 0xFFF#16) = true ∧
    nextHas 0xF11E { base with i := 0xFFF#16, v := regs [(1, 1#8)] } (fun t => t.i == 0x1000#16) = true ∧
    nextHas 0xF11E { base with i := 0xFFFF#16, v := regs [(1, 2#8)] } (fun t => t.i == 1#16) = true := by decide

/-- Vectors M7 and M8. -/
theorem test_spriteLoc :
    nextHas 0xF229 { base with v := regs [(2, 15#8)] } (fun t => t.i == 0x4B#16) = true ∧
    faultsWith 0xF229 { base with v := regs [(2, 16#8)] } .invalidSprite = true := by decide

/-- Vectors M13 and M14. -/
theorem test_storeBCD :
    nextHas 0xF033 { base with i := 0xFFD#16, v := regs [(0, 123#8)] }
      (fun t => t.readByte 0xFFD == 1#8 && t.readByte 0xFFE == 2#8 && t.readByte 0xFFF == 3#8) = true ∧
    faultsWith 0xF033 { base with i := 0xFFE#16, v := regs [(0, 123#8)] } .memoryError = true := by decide

/-- Vector M14b: the instruction overwrites its own high byte after it was fetched. -/
theorem test_storeBCD_self :
    nextHas 0xF033 { base with i := 0x1FE#16, v := regs [(0, 123#8)] }
      (fun t => t.pc == 0x202#16 && t.mem.readWord 0x200 == 0x0333#16) = true := by decide

/-- Vectors M15 and M17. -/
theorem test_storeRegs :
    nextHas 0xF255 { base with i := 0x400#16, v := regs [(0, 0x11#8), (1, 0x22#8), (2, 0x33#8), (3, 0x44#8)] }
      (fun t => t.readByte 0x400 == 0x11#8 && t.readByte 0x402 == 0x33#8 && t.readByte 0x403 == 0#8 && t.i == 0x400#16) = true ∧
    faultsWith 0xF155 { base with i := 0xFFF#16 } .memoryError = true := by decide

/-- Vectors M21 and M24. -/
theorem test_loadRegs :
    nextHas 0xF165 { base with v := regs [(2, 0x77#8)] }
      (fun t => t.reg 0 == 0xF0#8 && t.reg 1 == 0x90#8 && t.reg 2 == 0x77#8 && t.i == 0#16) = true ∧
    faultsWith 0xF065 { base with i := 0x1000#16 } .memoryError = true := by decide

/-- Vector DS1: two lit pixels go dark. -/
theorem test_cls : nextHas 0x00E0 { base with fb := [(0, 0xFFFFFFFF#32), (2047, 0xFFFFFFFF#32)], v := regs [(15, 1#8)] }
    (fun t => t.fb == [] && t.reg 15 == 1#8) = true := by decide

/-- Vector DS2: glyph 7 at the origin; offsets 64 y + x. -/
theorem test_drawSprite_glyph : nextHas 0xD015 { base with i := 0x23#16 }
    (fun t => t.fb.map (·.1) == [0, 1, 2, 3, 67, 130, 193, 257] && t.reg 15 == 0#8) = true := by decide

/-- Vectors DS6 (a column wraps) and DS12 (both coordinates read from the flag register before it is written). -/
theorem test_drawSprite_wrap :
    nextHas 0xD011 { base with i := 0x300#16, mem := base.mem.write 0x300 0x81#8, v := regs [(0, 62#8), (1, 31#8)] }
      (fun t => t.fb == [(1989, 0xFFFFFFFF#32), (2046, 0xFFFFFFFF#32)] && t.reg 15 == 0#8) = true ∧
    nextHas 0xDFF1 { base with i := 0x300#16, mem := base.mem.write 0x300 0x80#8, v := regs [(15, 1#8)] }
      (fun t => t.fb == [(65, 0xFFFFFFFF#32)] && t.reg 15 == 0#8) = true := by decide

/-- Vectors K2 and K5. -/
theorem test_skipKeyPressed :
    nextHas 0xE49E { base with pc := 0x240#16, v := regs [(4, 3#8)] } (fun t => t.pc == 0x242#16) = true ∧
    nextHas 0xE49E { base with pc := 0x240#16, v := regs [(4, 0x13#8)], keys := 8#16 } (fun t => t.pc == 0x244#16) = true := by
  decide

/-- Vectors K3 and K4. -/
theorem test_skipKeyNPressed :
    nextHas 0xE4A1 { base with pc := 0x240#16, v := regs [(4, 3#8)], keys := 8#16 } (fun t => t.pc == 0x242#16) = true ∧
    nextHas 0xE4A1 { base with pc := 0x240#16, v := regs [(4, 3#8)] } (fun t => t.pc == 0x244#16) = true := by decide

/-- Vectors K6 and K7. -/
theorem test_waitForKey :
    nextHas 0xF00A { base with keys := 0x88#16, status := .waitingForKey }
      (fun t => t.reg 0 == 3#8 && t.pc == 0x202#16 && t.status == .running && t.keys == 0x88#16) = true ∧
    nextHas 0xF00A base (fun t => t.pc == 0x200#16 && t.status == .waitingForKey && t.cycles == 1#64) = true := by decide

/-- Vectors K10, K12 and K14. -/
theorem test_timers :
    nextHas 0xF107 { base with dt := 3#16 } (fun t => t.reg 1 == 3#8 && t.dt == 3#16) = true ∧
    nextHas 0xF015 { base with v := regs [(0, 3#8)] } (fun t => t.dt == 3#16) = true ∧
    nextHas 0xF518 { base with v := regs [(5, 0x1E#8)] } (fun t => t.st == 30#16 && soundOn t) = true := by decide

/-- Vectors K17 and K18. -/
theorem test_rndAnd :
    nextHas 0xC20F base (fun t => t.reg 2 == 0x0E#8) = true ∧
    nextHas 0xC200 { base with v := regs [(2, 7#8)] }
      (fun t => t.reg 2 == 0#8 && t.rng.state == 0xFAF3C0D4F257F8A3#64) = true := by decide

/-- Section 2.6, the row (42, 54): the state after reset and the first output. -/
theorem test_rngReset_42_54 :
    rngReset 42#64 54#64 = { state := 0x185706B82C2E03F8#64, inc := 0x6D#64 } ∧
    (rngGenerate (rngReset 42#64 54#64)).1 = 0xA15C02B7#32 := by decide

/-- The rotate by zero of section 2.6. -/
theorem test_rotate_zero : rngOutput 0x0001234567800000#64 = 0x002468A5#32 := by decide

/-- Table H2. -/
theorem test_cpuSteps : cpuSteps 500#32 17#32 = 8 ∧ cpuSteps 60#32 16#32 = 0 ∧ cpuSteps 700#32 33#32 = 23 ∧
    cpuSteps 4294967295#32 4294967295#32 = 18446744065119617 := by decide

/-- Table H3: at 500 Hz the ninth divider step fires; at 61 Hz the first does not. -/
theorem test_divider :
    (dividerStep { base with acc := 480#32, dt := 3#16 }).acc = 40#32 ∧
    (dividerStep { base with acc := 480#32, dt := 3#16 }).dt = 2#16 ∧
    (dividerStep { base with cpuHz := 61#32, dt := 3#16 }).acc = 60#32 ∧
    (dividerStep { base with cpuHz := 61#32, dt := 3#16 }).dt = 3#16 := by decide

/-- Table H6, first row: with no ROM the first Tick faults, is counted, and leaves the rest. -/
theorem test_advanceMs_fault :
    (advanceMs 16#32 base).2 = .fault .invalidInstruction ∧ (advanceMs 16#32 base).1 = { base with cycles := 1#64 } := by decide

/-- Vector H7, the image of two bytes. -/
theorem test_loadRom : (loadRom [0x12#8, 0x00#8] base).1.mem = [(0x200, 0x12#8)] ∧ (loadRom [0x12#8, 0x00#8] base).2 = .ok := by
  decide

/-- Vector H8. -/
theorem test_keys : (keyDown 7 (keyDown 3 base)).keys = 0x88#16 ∧ (keyUp 3 (keyDown 7 (keyDown 3 base))).keys = 0x80#16 := by decide

/-- R41: all 16 glyphs after reset, each row of its table as one number of five bytes, and the byte after them. -/
theorem test_font :
    ((List.range 16).map fun d => (State.reset.mem.readBlock (5 * d) 5).foldl (fun n b => 256 * n + b.toNat) 0) =
      [0xF0909090F0, 0x2060202070, 0xF010F080F0, 0xF010F010F0, 0x9090F01010, 0xF080F010F0, 0xF080F090F0, 0xF010204040,
        0xF090F090F0, 0xF090F010F0, 0xF090F09090, 0xE090E090E0, 0xF0808080F0, 0xE0909090E0, 0xF080F080F0, 0xF080F08080] ∧
    State.reset.readByte 0x50 = 0#8 := by decide

/-- Row D of R41's table, byte by byte, and the reset memory, in which nothing is listed. -/
theorem test_font_D : State.reset.readByte 0x41 = 0xE0#8 ∧ State.reset.readByte 0x42 = 0x90#8 ∧
    State.reset.readByte 0x43 = 0x90#8 ∧ State.reset.readByte 0x44 = 0x90#8 ∧ State.reset.readByte 0x45 = 0xE0#8 ∧
    State.reset.mem = [] := by decide

/-! ## Witnesses: the hypotheses of the statements, met together, each clause at a boundary value -/

/-- The next state, where there is one. -/
def nextOf : Result → State
  | .next t => t
  | .fault _ => base
  | .refused _ => base

/-- `base` with the word of Jump(0x234) as the last word of memory, and `pc` there. -/
def atEnd : State := { base with pc := 4094#16, mem := [(4094, 0x12#8), (4095, 0x34#8)] }

theorem witness_WordRoundTrip : (Instr.drawSprite 15 15 15).wellFormed = true ∧ decode 0xDFFF#16 = some (.drawSprite 15 15 15) := by
  decide

theorem witness_TableDecidesDecoding :
    (decode 0x800E#16 = some (.shl 0 0) ∧ rowOf (.shl 0 0) ∈ opcodeTable ∧ (rowOf (.shl 0 0)).accepts 0x800E#16 = true) ∧
    (∀ r ∈ opcodeTable, r.accepts 0x5001#16 = false) := by decide

theorem witness_StepRunsDecoded :
    atEnd.status ≠ .halted ∧ atEnd.pc.toNat < 4095 ∧
    decode (BitVec.ofNat 16 ((atEnd.readByte atEnd.pc.toNat).toNat * 256 + (atEnd.readByte (atEnd.pc.toNat + 1)).toNat)) =
      some (.jump 0x234) ∧
    (Instr.jump 0x234).wellFormed = true ∧
    exec (.jump 0x234) { atEnd with cycles := atEnd.cycles + 1#64 } =
      .next { atEnd with cycles := atEnd.cycles + 1#64, pc := 0x234#16 } :=
  ⟨by decide, by decide, by decide, by decide, rfl⟩

/-- The same state with the word of Ret, whose stack is empty. -/
def retAtEnd : State := { atEnd with mem := [(4095, 0xEE#8)] }

theorem witness_StepRunsDecoded_fault :
    retAtEnd.status ≠ .halted ∧ retAtEnd.pc.toNat < 4095 ∧
    decode (BitVec.ofNat 16 ((retAtEnd.readByte retAtEnd.pc.toNat).toNat * 256 +
      (retAtEnd.readByte (retAtEnd.pc.toNat + 1)).toNat)) = some .ret ∧
    Instr.ret.wellFormed = true ∧ exec .ret { retAtEnd with cycles := retAtEnd.cycles + 1#64 } = .fault .popEmptyStack :=
  ⟨by decide, by decide, by decide, rfl, rfl⟩

theorem witness_IllegalWordFaults :
    { base with pc := 4094#16 }.status ≠ .halted ∧ ({ base with pc := 4094#16 } : State).pc.toNat < 4095 ∧
    decode (({ base with pc := 4094#16 } : State).mem.readWord 4094) = none := by decide

theorem witness_FetchOutsideMemoryFaults :
    ({ base with pc := 4095#16 } : State).status ≠ .halted ∧ 4095 ≤ ({ base with pc := 4095#16 } : State).pc.toNat := by decide

theorem witness_HaltedTickChangesNothing : ({ base with status := .halted } : State).status = .halted := rfl

/-- `base` with its memory, in which nothing is listed, written out. -/
def bare : State := { base with mem := [] }

theorem witness_FaultChangesOnlyCycles : step bare = .fault .invalidInstruction := rfl

/-- Each cause of an execute fault, at the smallest value that is one. -/
theorem witness_ExecuteFaultCauses :
    ({ base with sp := 16 } : State).sp.val = 16 ∧ base.sp.val = 0 ∧
    16 ≤ (({ base with v := regs [(0, 16#8)] } : State).reg 0).toNat ∧
    4095 < ({ base with i := 4094#16 } : State).i.toNat + 2 ∧
    4095 < ({ base with i := 4096#16 } : State).i.toNat + (0 : Reg).val ∧
    (7#4 : Nibble) ≠ 0#4 ∧ 4096 < ({ base with i := 4090#16 } : State).i.toNat + (7#4 : Nibble).toNat := by decide

theorem witness_ProgramCounterTable :
    exec .ret { bare with sp := 1, stack := base.stack.set 0 0x206#16 } =
      .next { bare with pc := 0x206#16, stack := base.stack.set 0 0x206#16 } := rfl

theorem witness_CallPushesReturn :
    ({ base with sp := 15 } : State).sp.val < 16 ∧ ({ base with sp := 16 } : State).sp.val = 16 ∧
    (14 : Fin 16).val ≠ ({ base with sp := 15 } : State).sp.val := by decide

theorem witness_RetPopsReturn :
    ({ base with sp := 16 } : State).sp.val = (15 : Fin 16).val + 1 ∧ ({ base with sp := 1 } : State).sp.val = (0 : Fin 16).val + 1 ∧
    base.sp.val = 0 := by decide

/-- A Call at depth 15, and the state in which some instruction has since written a register. -/
def deep : State := { base with sp := 15 }
def called : State := nextOf (exec (.call 0x300) deep)
def calledLater : State := { called with v := regs [(0, 9#8)], pc := 0x310#16 }

theorem witness_RetResumesAfterCall :
    exec (.call 0x300) deep = .next called ∧ calledLater.stack = called.stack ∧ calledLater.sp = called.sp := ⟨rfl, rfl, rfl⟩

theorem witness_AddResultAndCarry : (14 : Reg) ≠ 15 := by decide

theorem witness_SubtractResultsAndFlag : (14 : Reg) ≠ 15 := by decide

theorem witness_ShiftResultsAndFlag : (14 : Reg) ≠ 15 ∧ (15 : Reg) = 15 := by decide

theorem witness_SpriteLocPointsAtGlyph :
    (({ base with v := regs [(2, 15#8)] } : State).reg 2).toNat < 16 ∧
    16 ≤ (({ base with v := regs [(2, 16#8)] } : State).reg 2).toNat := by decide

theorem witness_StoreBCDWritesDigits :
    (({ base with i := 4093#16 } : State).mem.wf = true ∧ ({ base with i := 4093#16 } : State).i.toNat + 2 ≤ 4095) ∧
    4095 < ({ base with i := 4094#16 } : State).i.toNat + 2 ∧ 4092 < ({ base with i := 4093#16 } : State).i.toNat := by decide

theorem witness_StoreRegsWritesBlock :
    (({ base with i := 4080#16 } : State).mem.wf = true ∧ ({ base with i := 4080#16 } : State).i.toNat + (15 : Reg).val ≤ 4095) ∧
    4095 < ({ base with i := 4081#16 } : State).i.toNat + (15 : Reg).val ∧ (15 : Reg) ≤ 15 := by decide

theorem witness_LoadRegsReadsBlock :
    ({ base with i := 4081#16 } : State).i.toNat + (14 : Reg).val ≤ 4095 ∧ (14 : Reg) ≤ 14 ∧ (14 : Reg) < 15 ∧
    4095 < ({ base with i := 4082#16 } : State).i.toNat + (14 : Reg).val := by decide

/-- StoreRegs of a Jump's two bytes behind itself. -/
def writer : State := { base with i := 0x202#16, v := regs [(0, 0x12#8), (1, 0x0A#8)] }
def written : State := nextOf (exec (.storeRegs 1) writer)

theorem witness_LoadRestoresStored :
    writer.mem.wf = true ∧ exec (.storeRegs 1) writer = .next written ∧
    ({ written with v := regs [] } : State).mem = written.mem ∧ ({ written with v := regs [] } : State).i = writer.i ∧
    (1 : Reg) ≤ 1 := ⟨by decide, rfl, rfl, rfl, by decide⟩

theorem witness_FetchSeesStoredBytes :
    writer.mem.wf = true ∧ exec (.storeRegs 1) writer = .next written ∧ (1 : Reg) ≤ 1 ∧ (1 : Reg).val = (0 : Reg).val + 1 ∧
    written.pc.toNat = writer.i.toNat + (0 : Reg).val := ⟨by decide, rfl, by decide, by decide, by decide⟩

/-- A framebuffer with the last pixel lit. -/
def litCorner : Framebuffer := [(2047, 0xFFFFFFFF#32)]

theorem witness_XorPixelUnit : litCorner.wf = true ∧ 63 < 64 ∧ 31 < 32 ∧ litCorner.get (displayOffset false 63 31) ≠ 0#32 ∧
    2046 ≠ displayOffset false 63 31 := by decide

theorem witness_DisplayUnitLaws : 2047 < 2048 ∧ litCorner.wf = true ∧ 63 < 64 ∧ 31 < 32 := by decide

/-- One byte with its leftmost bit set, to be drawn at the lit corner. -/
def drawer : State :=
  { base with fb := litCorner, mem := base.mem.write 0xFFF 0x80#8, i := 0xFFF#16, v := regs [(0, 63#8), (1, 31#8)] }

theorem witness_DrawSpriteBlits_inside : drawer.fb.wf = true ∧ drawer.i.toNat + (1#4 : Nibble).toNat ≤ 4096 := by decide

/-- The corner is covered and lit: the clause of the flag 1; the pixel beside it is not covered. -/
theorem witness_DrawSpriteBlits_hit :
    spriteCovers ((List.range (1#4 : Nibble).toNat).map fun k => drawer.readByte (drawer.i.toNat + k)) (drawer.reg 0).toNat
      (drawer.reg 1).toNat 63 31 ∧
    drawer.pixelAt 63 31 ≠ 0#32 :=
  ⟨⟨0, 0, by decide, by decide, by decide, by decide, by decide⟩, by decide⟩

theorem witness_DrawSpriteBlits_beside :
    ¬ spriteCovers ((List.range (1#4 : Nibble).toNat).map fun k => drawer.readByte (drawer.i.toNat + k)) (drawer.reg 0).toNat
      (drawer.reg 1).toNat 63 30 := by
  rintro ⟨dy, dx, hdy, _, _, hy, _⟩
  have h0 : dy = 0 := by simpa using hdy
  subst h0
  revert hy
  decide

/-- On a dark display no covered pixel is lit: the clause of the flag 0. -/
theorem witness_DrawSpriteBlits_miss (x y : Nat) : ({ drawer with fb := [] } : State).pixelAt x y = 0#32 := rfl

theorem witness_DrawSpriteBlits_edges :
    (0#4 : Nibble) = 0#4 ∧ (7#4 : Nibble) ≠ 0#4 ∧ 4096 < ({ base with i := 4090#16 } : State).i.toNat + (7#4 : Nibble).toNat := by
  decide

theorem witness_DrawTwiceRestores :
    drawer.fb.wf = true ∧ (0 : Reg) ≠ 15 ∧ (1 : Reg) ≠ 15 ∧
    exec (.drawSprite 0 1 1) drawer = .next (nextOf (exec (.drawSprite 0 1 1) drawer)) := ⟨by decide, by decide, by decide, rfl⟩

/-- The same logical corner lit under both settings of the inversion. -/
def plain : State := { drawer with invertY := false }
def inverted : State := { drawer with invertY := true, fb := [(63, 0xFFFFFFFF#32)] }

theorem witness_InversionIsInvisible :
    plain.fb.wf = true ∧ inverted.fb.wf = true ∧ inverted = { plain with invertY := !plain.invertY, fb := inverted.fb } ∧
    (∀ x y, x < 64 → y < 32 → inverted.pixelAt x y = plain.pixelAt x y) ∧
    exec (.drawSprite 0 1 1) plain = .next (nextOf (exec (.drawSprite 0 1 1) plain)) := by
  refine ⟨by decide, by decide, rfl, fun x y hx hy => ?_, rfl⟩
  have hl : inverted.pixelAt x y = if 63 = (31 - y) * 64 + x then 0xFFFFFFFF#32 else 0#32 := rfl
  have hr : plain.pixelAt x y = if 2047 = y * 64 + x then 0xFFFFFFFF#32 else 0#32 := rfl
  rw [hl, hr]
  by_cases h : 2047 = y * 64 + x
  · rw [if_pos h, if_pos (by omega)]
  · rw [if_neg h, if_neg (by omega)]

/-- Key 15 alone, and no key. -/
theorem witness_WaitForKeyTakesOrStalls :
    base.keys = 0#16 ∧ (15 < 16 ∧ ({ base with keys := 0x8000#16 } : State).keys.getLsbD 15 = true ∧
      ∀ j, j < 15 → ({ base with keys := 0x8000#16 } : State).keys.getLsbD j = false) ∧
    ({ base with keys := 0x8001#16 } : State).keys.getLsbD 0 = true := by decide

theorem witness_RndAndMasksOutput : (15 : Reg) ≠ 14 := by decide

theorem witness_RegisterFrame :
    exec (.loadRegs 14) base = .next (nextOf (exec (.loadRegs 14) base)) ∧ (15 : Reg) ∉ destRegs (.loadRegs 14) :=
  ⟨rfl, by decide⟩

theorem witness_MemoryFrame :
    exec (.storeBCD 0) { base with i := 4093#16 } = .next (nextOf (exec (.storeBCD 0) { base with i := 4093#16 })) ∧
    4092 < State.base { base with i := 4093#16 } ∧ State.base { base with i := 4093#16 } + storedBytes (.storeBCD 0) ≤ 4096 :=
  ⟨rfl, by decide, by decide⟩

theorem witness_SpecialStateFrame :
    exec (.addI 15 1) base = .next (nextOf (exec (.addI 15 1) base)) ∧ writesIndex (.addI 15 1) = false ∧
    usesStack (.addI 15 1) = false ∧ writesDisplay (.addI 15 1) = false := ⟨rfl, rfl, rfl, rfl⟩

/-- WaitForKey stalling, with the step after it. -/
def stalled : State := { base with mem := [(0x200, 0xF0#8), (0x201, 0x0A#8)], status := .waitingForKey }

theorem witness_StatusMachine :
    exec (.waitForKey 0) stalled = .next stalled ∧ stalled.status = .waitingForKey ∧ step stalled = .next (nextOf (step stalled)) ∧
    step { base with status := .waitingForKey } = .fault .invalidInstruction := ⟨rfl, rfl, rfl, rfl⟩

theorem witness_DividerStepExact :
    (60 ≤ ({ base with acc := 440#32 } : State).cpuHz.toNat ∧
      ({ base with acc := 440#32 } : State).cpuHz.toNat ≤ ({ base with acc := 440#32 } : State).acc.toNat + 60) ∧
    ({ base with acc := 439#32 } : State).acc.toNat + 60 < ({ base with acc := 439#32 } : State).cpuHz.toNat ∧
    60 ≤ ({ base with cpuHz := 60#32 } : State).cpuHz.toNat := by decide

/-- A halted Cpu at 61 Hz: the second divider step fires. -/
def resting : State := { base with status := .halted, cpuHz := 61#32, dt := 3#16 }

theorem witness_DividerRateLaw :
    60 ≤ resting.cpuHz.toNat ∧ resting.acc = 0#32 ∧ Runs 2 resting (dividerStep (dividerStep resting)) ∧
    resting.status = .halted := ⟨by decide, rfl, ⟨_, rfl, _, rfl, rfl⟩, rfl⟩

/-- A Cpu that runs instructions at 60 Hz: its one divider step fires. -/
theorem witness_DividerRateLaw_running :
    60 ≤ ({ stalled with cpuHz := 60#32 } : State).cpuHz.toNat ∧ ({ stalled with cpuHz := 60#32 } : State).acc = 0#32 ∧
    Runs 1 { stalled with cpuHz := 60#32 } (dividerStep (nextOf (tick { stalled with cpuHz := 60#32 }))) ∧
    ({ stalled with cpuHz := 60#32 } : State).status ≠ .halted ∧ ticksFired 1 { stalled with cpuHz := 60#32 } = 1 :=
  ⟨by decide, rfl, ⟨_, rfl, rfl⟩, by decide, rfl⟩

theorem witness_AdvanceMsRunsAndStops :
    tick stalled = .next (nextOf (tick stalled)) ∧
    Runs (stalled.cpuHz.toNat * (2#32 : Word).toNat / 1000) stalled (nextOf (step stalled)) ∧
    0 < base.cpuHz.toNat * (2#32 : Word).toNat / 1000 ∧ Runs 0 base base ∧ tick base = .fault .invalidInstruction :=
  ⟨rfl, ⟨_, rfl, rfl⟩, by decide, rfl, rfl⟩

theorem witness_LoadRomCopies :
    (List.replicate 3584 (0#8 : Byte)).length ≤ 3584 ∧ base.mem.wf = true ∧ 3584 < (List.replicate 3585 (0#8 : Byte)).length ∧
    3583 < (List.replicate 3584 (0#8 : Byte)).length :=
  ⟨by rw [List.length_replicate], by decide, by rw [List.length_replicate]; decide, by rw [List.length_replicate]; decide⟩

theorem witness_KeyOperations : 15 < 16 ∧ (15#4 : Nibble).toNat = 15 := by decide

theorem witness_HostReadsChangeNothing : 2047 < 2048 := by decide

theorem witness_SetCpuHzAcceptsFrom60 : (59#32 : Word).toNat < 60 ∧ 60 ≤ (60#32 : Word).toNat := by decide

theorem witness_ConstructionValues : (paramsAt 59#32).cpuHz.toNat < 60 ∧ 60 ≤ (paramsAt 60#32).cpuHz.toNat := by decide

theorem witness_ExecutionStartsAtRom : (List.replicate 3582 (0#8 : Byte)).length ≤ 3582 := by rw [List.length_replicate]

/-- A state with a lit pixel, a used stack and a `pc` as high as it goes meets the invariants. -/
def tall : State :=
  { stalled with fb := litCorner, pc := 4350#16, stack := base.stack.set 0 4096#16, sp := 1, dt := 255#16, st := 255#16 }

theorem witness_Inv_boundary : tall.Inv where
  mem_wf := by decide
  fb_wf := by decide
  pixel o := by
    have h : tall.fb.get o = if 2047 = o then 0xFFFFFFFF#32 else 0#32 := rfl
    rw [h]
    split
    · exact .inr rfl
    · exact .inl rfl
  dt_le := by decide
  st_le := by decide
  inc_odd := by decide
  rate := by decide
  pc_lt := by decide
  stack_le := by decide

theorem witness_StepKeepsInvariant : State.Inv { tall with pc := 0x200#16 } ∧
    step { tall with pc := 0x200#16 } = .next (nextOf (step { tall with pc := 0x200#16 })) :=
  ⟨{ witness_Inv_boundary with pc_lt := by decide }, rfl⟩

theorem witness_StepKeepsDivided : State.Divided { stalled with acc := 499#32 } ∧
    step { stalled with acc := 499#32 } = .next (nextOf (step { stalled with acc := 499#32 })) := ⟨⟨by decide, by decide⟩, rfl⟩

theorem witness_ReachableStatesKeepInvariant : Reachable (applyHostOp (.keyDown 15) (State.new (paramsAt 60#32))).1 :=
  .host _ _ (.new _ (by decide))

end Sys2Proof.Tests
end

namespace Sys2Proof

/-- Settles O4, the six words of R101: four that name an instruction of groups 0, 1, 8 and F, and two whose `op` is a group
of the table but whose low nibble selects no row of it. -/
theorem sourceDecodeExamples : Obligations.SourceDecodeExamples := by
  have group0 : decode 0x00E0#16 = some .cls := by decide
  have jump : decode 0x1234#16 = some (.jump 0x234#12) := by decide
  have group8 : decode 0x8014#16 = some (.add 0 1) := by decide
  have groupF : decode 0xF055#16 = some (.storeRegs 0) := by decide
  have group5_illegal : decode 0x5001#16 = none := by decide
  have group8_illegal : decode 0x8018#16 = none := by decide
  exact ⟨group0, jump, group8, groupF, group5_illegal, group8_illegal⟩

end Sys2Proof

/-! Control transfer (40_control_transfer): the words of Jump, Call and the register skips, and what each one does. -/

namespace Sys2Proof

/-- Decoding undoes encoding (R100). Each case reads the fields of its format back: they select the instruction's row and give
its operands. -/
theorem decode_encode (i : Instr) : decode (encode i) = some i := by
  cases i with
  | cls | ret => decide
  | jump | call | loadA | jumpV0 => simp [encode, decode]
  | skipEqI | skipNeqI | loadI | addI | rndAnd => simp [encode, decode]
  | skipEq | skipNeq | drawSprite => simp [encode, decode]
  | move | or | and | xor | add | sub | shr | subN | shl => simp [encode, decode, decodeGroup8]
  | skipKeyPressed | skipKeyNPressed => simp [encode, decode, decodeGroupE]
  | getDelay | waitForKey | setDelay | setSound | addIndex | spriteLoc | storeBCD | storeRegs | loadRegs =>
    simp [encode, decode, decodeGroupF]

namespace Machine

/-- A word is an instruction's both ways as soon as the encoder gives it. -/
theorem encodes_of_eq_encode {w : Half} {i : Instr} (h : w = encode i) : Encodes w i := by
  subst h
  exact ⟨decode_encode i, rfl⟩

/-- `zext_16(addr)` (R88) by value, the form the obligations write it in. -/
theorem addrOperand_eq_ofNat (addr : Addr) : addrOperand addr = BitVec.ofNat 16 addr.toNat :=
  (BitVec.ofNat_toNat 16 addr).symm

theorem exec_jump (addr : Addr) (s : State) : exec (.jump addr) s = .next (s.setPc (addrOperand addr)) := rfl

theorem exec_call_full (addr : Addr) (s : State) (h : s.sp.val = 16) :
    exec (.call addr) s = .fault .stackOverflow := by
  rw [exec, execCall, State.push_full _ h]
  rfl

/-- A skip on a decidable condition (R110), as the record update of `pc` alone. -/
theorem skipWhen_decide (p : Prop) [Decidable p] (s : State) :
    skipWhen (decide p) s = .next { s with pc := if p then s.pc + 4#16 else s.pc + 2#16 } := by
  simp only [skipWhen_eq, decide_eq_true_eq, State.setPc]

end Machine

open Machine

/-- Settles O14: below depth 16 by the state Call leaves, at depth 16 because the push answers `none`. -/
theorem callPushesReturn : Obligations.CallPushesReturn := by
  intro addr s
  refine ⟨encodes_of_eq_encode (wordA_eq 2 addr), fun h => ?_, exec_call_full addr s⟩
  refine ⟨_, exec_call addr s h, ?_, rfl, ?_, fun k hk => ?_⟩
  · rw [addrOperand_eq_ofNat]
  · exact Vector.getElem?_set_self h
  · exact Vector.getElem_set_ne h k.isLt hk.symm

/-- Settles O13: Jump hands its zero-extended address to `pc` and writes nothing else. -/
theorem jumpSetsPc : Obligations.JumpSetsPc := by
  intro addr s
  refine ⟨encodes_of_eq_encode (wordA_eq 1 addr), ?_⟩
  rw [exec_jump, addrOperand_eq_ofNat, State.setPc]

/-- Settles O18: each of the three skips is `skipWhen` on its own comparison. -/
theorem compareSkips : Obligations.CompareSkips := by
  constructor
  · intro rx imm s
    exact ⟨encodes_of_eq_encode (wordX_eq 3 rx imm), encodes_of_eq_encode (wordX_eq 4 rx imm),
      skipWhen_decide (s.reg rx = imm) s, skipWhen_decide (s.reg rx ≠ imm) s⟩
  · intro rx ry s
    exact ⟨encodes_of_eq_encode (wordXY_eq 5 rx ry 0#4), skipWhen_decide (s.reg rx = s.reg ry) s⟩

end Sys2Proof

/-! Load and ALU (41_load_alu): the writes of the instructions that put the flag last, and what Add does. -/

namespace Sys2Proof.Machine

/-- The frame of Add, Sub and SubN (R131, R132, R134): whatever result and flag they write, in that order. -/
theorem registersOnly_setReg_setFlag (rx : Reg) (b f : Byte) (s : State) :
    RegistersOnly [rx, 15] s (((s.setReg rx b).setFlag f).setPc (s.pc + 2#16)) where
  rest := rfl
  regs r hr := by
    obtain ⟨hrx, hflag⟩ : r ≠ rx ∧ r ≠ 15 := by simpa using hr
    rw [State.reg_setPc, State.reg_setFlag_other _ _ hflag, State.reg_setReg_other _ _ hrx]
  bytes _ := rfl

theorem exec_add (rx ry : Reg) (s : State) :
    exec (.add rx ry) s =
      .next (((s.setReg rx (s.reg rx + s.reg ry)).setFlag (addFlag (s.reg rx) (s.reg ry))).setPc (s.pc + 2#16)) := rfl

theorem addFlag_toNat (a b : Byte) : (addFlag a b).toNat = if 256 ≤ a.toNat + b.toNat then 1 else 0 := by
  simp only [addFlag, flagByte_toNat, decide_eq_true_eq]

end Sys2Proof.Machine

namespace Sys2Proof

open Machine

/-- Settles O21: the flag is written after the sum, so `V[15]` holds the carry for every `rx`, and the sum stays in `V[rx]`
exactly when `rx` is not the flag register. -/
theorem addResultAndCarry : Obligations.AddResultAndCarry := by
  intro rx ry s
  refine ⟨encodes_of_eq_encode (wordXY_eq 8 rx ry 4#4), _, exec_add rx ry s,
    registersOnly_setReg_setFlag rx _ _ s, fun hrx => ?_, ?_⟩
  · rw [State.reg_setPc, State.reg_setFlag_other _ _ hrx, State.reg_setReg_self, BitVec.toNat_add]
  · rw [State.reg_setPc, State.reg_setFlag_self, addFlag_toNat]

end Sys2Proof

/-! Display (43_display): what one `xor_pixel` reports, changes and keeps. -/

namespace Sys2Proof

open Machine

/-- Settles O31 by the three laws of `xorPixel`. Only the XORed pixel needs the canonical form: a read after a write of
`CLEAR_COLOR` finds the default because no later entry lists the same offset. -/
theorem xorPixelUnit : Obligations.XorPixelUnit := by
  intro inv fb x y c hfb _ _
  exact ⟨xorPixel_hit, xorPixel_self hfb, fun _ ho => xorPixel_other ho⟩

end Sys2Proof

/-! Keypad and random numbers (44_keypad_timer_random): the key search as an `↔`, and the generator's output by value. -/

namespace Sys2Proof.Machine

/-- `firstKeyPressed_some` with its converse: the lowest held key is what the search stops at (R176). -/
theorem firstKeyPressed_eq_some_iff (keys : Half) (k : Nat) :
    firstKeyPressed keys = some k ↔
      k < 16 ∧ keys.getLsbD k = true ∧ ∀ j, j < k → keys.getLsbD j = false := by
  refine ⟨firstKeyPressed_some, fun ⟨hk, hheld, hlower⟩ => ?_⟩
  exact List.find?_range_eq_some.mpr ⟨hheld, List.mem_range.mpr hk, fun j hj => by rw [hlower j hj]; rfl⟩

/-- The search fails exactly on the empty mask: the 16 codes it tries are all the bits there are. -/
theorem firstKeyPressed_eq_none_iff (keys : Half) : firstKeyPressed keys = none ↔ keys = 0#16 := by
  constructor
  · intro h
    apply BitVec.eq_of_getLsbD_eq
    intro k hk
    have hclear := List.find?_eq_none.mp h k (List.mem_range.mpr hk)
    rw [BitVec.getLsbD_zero]
    exact eq_false_of_ne_true hclear
  · rintro rfl
    decide

/-- A rotate by value: the two shifted parts share no bit, so their OR is their sum. A rotate by 0 is no exception, its left
part being a multiple of 2^32. -/
theorem rotr32_toNat (v : Word) {r : Nat} (hr : r ≤ 32) :
    (rotr32 v r).toNat = (v.toNat / 2 ^ r + v.toNat * 2 ^ (32 - r)) % 2 ^ 32 := by
  have hlow : v.toNat >>> r < 2 ^ (32 - r) := by
    rw [Nat.shiftRight_eq_div_pow]
    apply Nat.div_lt_of_lt_mul
    rw [← Nat.pow_add, Nat.add_sub_cancel' hr]
    exact v.isLt
  calc (rotr32 v r).toNat
      = (v.toNat >>> r ||| v.toNat <<< (32 - r)) % 2 ^ 32 := by
        rw [Nat.or_mod_two_pow, ← BitVec.toNat_shiftLeft, ← BitVec.toNat_ushiftRight,
          Nat.mod_eq_of_lt (BitVec.isLt _), ← BitVec.toNat_or, rotr32]
    _ = (v.toNat <<< (32 - r) + v.toNat >>> r) % 2 ^ 32 := by
        rw [Nat.or_comm, Nat.shiftLeft_add_eq_or_of_lt hlow]
    _ = (v.toNat / 2 ^ r + v.toNat * 2 ^ (32 - r)) % 2 ^ 32 := by
        rw [Nat.add_comm, Nat.shiftLeft_eq, Nat.shiftRight_eq_div_pow]

/-- The word that the output rotates (R181), by value. -/
theorem rngXorshift_toNat (old : Long) :
    ((((old >>> 18) ^^^ old) >>> 27).setWidth 32).toNat =
      ((old.toNat / 2 ^ 18) ^^^ old.toNat) / 2 ^ 27 % 2 ^ 32 := by
  simp only [BitVec.toNat_setWidth, BitVec.toNat_ushiftRight, BitVec.toNat_xor, Nat.shiftRight_eq_div_pow]

/-- The rotate amount (R181) is the state's top five bits, so it is below 32. -/
theorem rngRotation_toNat (old : Long) : (old >>> 59).toNat = old.toNat / 2 ^ 59 := by
  rw [BitVec.toNat_ushiftRight, Nat.shiftRight_eq_div_pow]

theorem rngRotation_lt (old : Long) : old.toNat / 2 ^ 59 < 32 :=
  Nat.div_lt_of_lt_mul old.isLt

/-- The state update of R181 by value; the model writes the multiplier on the left. -/
theorem rngGenerate_state_toNat (g : Rng) :
    (rngGenerate g).2.state.toNat = (g.state.toNat * 0x5851F42D4C957F2D + g.inc.toNat) % 2 ^ 64 := by
  rw [rngGenerate_state, BitVec.toNat_add, BitVec.toNat_mul, Nat.mod_add_mod, Nat.mul_comm, BitVec.toNat_ofNat]

end Sys2Proof.Machine

namespace Sys2Proof

open Machine

/-- Settles O37: the search over the key codes in ascending order, once for its answer and once for its failure. -/
theorem lowestKeyWins : Obligations.LowestKeyWins := fun keys =>
  ⟨firstKeyPressed_eq_some_iff keys, firstKeyPressed_eq_none_iff keys⟩

/-- Settles O40: the update by value, the increment kept, and the output as a rotate by value of the state before. -/
theorem generatorStepExact : Obligations.GeneratorStepExact := by
  intro g
  refine ⟨rngGenerate_state_toNat g, rngGenerate_inc g, ?_⟩
  rw [rngGenerate_output, rngOutput, rngRotation_toNat, rotr32_toNat _ (rngRotation_lt g.state).le, rngXorshift_toNat]

end Sys2Proof

/-! The Cpu step (45_cpu_tick): a fetch fault is the step's fault, and a faulting step ends the loop of `advance_ms`. -/

namespace Sys2Proof.Machine

/-- Outside Halted the step raises the fault of its fetch (R200). -/
theorem step_of_fetchInstr_error {s : State} {f : Fault} (hrun : s.status ≠ .halted) (hf : fetchInstr s = .error f) :
    step s = .fault f := by
  rw [step_fault]
  rcases tick_cases s with ⟨hhalted, _⟩ | ⟨_, g, hg, htick⟩ | ⟨_, i, hi, _⟩
  · exact absurd hhalted hrun
  · rw [hf] at hg
    cases hg
    exact htick
  · rw [hf] at hi
    cases hi

/-- The Ticks still scheduled are dropped at a fault, and the faulting one is counted (R208, R238). -/
theorem advanceLoop_of_step_fault {s : State} {f : Fault} (h : step s = .fault f) (n : Nat) :
    advanceLoop (n + 1) s = (s.afterFault, .fault f) := by
  rw [advanceLoop, h]

end Sys2Proof.Machine

namespace Sys2Proof

open Machine

/-- Settles O6: the fetch fails because the word does not decode, and that fault ends the step and the loop. -/
theorem illegalWordFaults : Obligations.IllegalWordFaults := by
  intro s n hrun hpc hillegal
  have hfetch : fetchInstr s = .error .invalidInstruction := fetchInstr_error.mpr (.inr ⟨hpc, hillegal, rfl⟩)
  have hstep : step s = .fault .invalidInstruction := step_of_fetchInstr_error hrun hfetch
  exact ⟨hstep, advanceLoop_of_step_fault hstep n⟩

end Sys2Proof

/-! The host's loop (60_exceptions): a fault-free prefix of `advance_ms` hands the Ticks that remain to the state it reaches. -/

namespace Sys2Proof.Machine

/-- After `j` fault-free turns the loop goes on with what is left of its count (R238). -/
theorem advanceLoop_of_runs {s t : State} {j : Nat} (h : Runs j s t) (n : Nat) :
    advanceLoop (j + n) s = advanceLoop n t := by
  induction j generalizing s with
  | zero =>
    cases h
    rw [Nat.zero_add]
  | succ j ih =>
    obtain ⟨u, hstep, hrest⟩ := h
    rw [Nat.add_right_comm, advanceLoop, hstep]
    exact ih hrest

end Sys2Proof.Machine

namespace Sys2Proof

open Machine

/-- Settles O50: the loop's count splits at the state the run reaches. Nothing is left of it when every scheduled turn runs;
at a faulting Tick at least that Tick is left, and the step's fault ends the loop there. -/
theorem advanceMsRunsAndStops : Obligations.AdvanceMsRunsAndStops := by
  refine ⟨fun u w htick => step_next.mpr ⟨w, htick, rfl⟩, fun ms s t hrun => ?_, fun ms s u j f hj hrun htick => ?_⟩
  · exact advanceLoop_of_runs hrun 0
  · obtain ⟨n, hn⟩ : ∃ n, cpuSteps s.cpuHz ms = j + (n + 1) := Nat.exists_eq_add_of_lt hj
    rw [advanceMs, hn, advanceLoop_of_runs hrun]
    exact advanceLoop_of_step_fault (step_fault.mpr htick) n

/-- Settles O47: the frame is the record update itself, and each timer is one decrement. -/
theorem peripheralTickDecrements : Obligations.PeripheralTickDecrements := fun s =>
  ⟨rfl, decrementTimer_toNat s.dt, decrementTimer_toNat s.st⟩

end Sys2Proof

/-! Reset (70_reset_and_hazards): what `load_rom` writes and keeps, and the word a fetch inside the bounds gives. -/

namespace Sys2Proof.Machine

/-- An image that fits is written as one block at the ROM base, and nothing else changes (R262). -/
theorem loadRom_of_length_le {bytes : List Byte} (h : bytes.length ≤ 3584) (s : State) :
    loadRom bytes s = ({ s with mem := s.mem.writeBlock 0x200 bytes }, .ok) :=
  if_pos (decide_eq_true h)

theorem read_loadRom {bytes : List Byte} {s : State} (h : bytes.length ≤ 3584) (hmem : s.mem.wf = true) {k : Nat}
    (hk : k < bytes.length) : (loadRom bytes s).1.mem.read (0x200 + k) = bytes[k] := by
  rw [loadRom_of_length_le h]
  exact Memory.read_writeBlock_self hmem (by omega) hk

/-- Inside the bounds of R201 the fetch gives the word at `pc`, high byte first (R63). -/
theorem fetchWord_of_pc_lt {s : State} (h : s.pc.toNat < 4095) :
    fetchWord s =
      .ok (BitVec.ofNat 16 ((s.mem.read s.pc.toNat).toNat * 256 + (s.mem.read (s.pc.toNat + 1)).toNat)) := by
  rw [fetchWord, if_neg (Nat.not_le.mpr h), Memory.readWord_eq]

end Sys2Proof.Machine

namespace Sys2Proof

open Machine

/-- Settles O56: `load_rom` keeps the reset `pc`, which is the ROM base, so the fetch reads the image's bytes 0 and 1. -/
theorem executionStartsAtRom : Obligations.ExecutionStartsAtRom := by
  intro p hi lo rest hrest
  refine ⟨rfl, ?_⟩
  have hfits : (hi :: lo :: rest).length ≤ 3584 := Nat.add_le_add_right hrest 2
  have hpc : (loadRom (hi :: lo :: rest) (State.new p)).1.pc.toNat = 0x200 := by
    rw [loadRom_of_length_le hfits]
    rfl
  have hhigh : (loadRom (hi :: lo :: rest) (State.new p)).1.mem.read 0x200 = hi :=
    read_loadRom hfits (State.new_mem_wf p) (Nat.zero_lt_succ _)
  have hlow : (loadRom (hi :: lo :: rest) (State.new p)).1.mem.read (0x200 + 1) = lo :=
    read_loadRom hfits (State.new_mem_wf p) (Nat.one_lt_succ_succ _)
  rw [applyHostOp, fetchWord_of_pc_lt (hpc.trans_lt (by decide)), hpc, hhigh, hlow]

end Sys2Proof

/-! Encoding (30_encoding): the decoder's inversion, and the opcode table read from a word's fields. -/

namespace Sys2Proof

open Machine
open Laws.WordForm (accepts_of_op accepts_of_sub4 accepts_of_sub8)

/-! Each group of the decoder, inverted: the fields that selected the row are the ones its word is built from. -/

theorem encode_of_decodeGroup0 {w : Half} {i : Instr} (h : decodeGroup0 w = some i) : encode i = w := by
  unfold decodeGroup0 at h
  split at h
  · cases h
    exact Eq.symm ‹_›
  · split at h <;> cases h
    exact Eq.symm ‹_›

theorem encode_of_decodeGroup8 {w : Half} {i : Instr} (hop : fieldOp w = 0x8#4) (h : decodeGroup8 w = some i) :
    encode i = w := by
  have hw := formatXY_fields w
  rw [hop] at hw
  unfold decodeGroup8 at h
  split at h <;> cases h <;> rename_i hn <;> rw [hn] at hw <;> exact hw

theorem encode_of_decodeGroupE {w : Half} {i : Instr} (hop : fieldOp w = 0xE#4) (h : decodeGroupE w = some i) :
    encode i = w := by
  have hw := formatX_fields w
  rw [hop] at hw
  unfold decodeGroupE at h
  split at h <;> cases h <;> rename_i hlow <;> rw [hlow] at hw <;> exact hw

theorem encode_of_decodeGroupF {w : Half} {i : Instr} (hop : fieldOp w = 0xF#4) (h : decodeGroupF w = some i) :
    encode i = w := by
  have hw := formatX_fields w
  rw [hop] at hw
  unfold decodeGroupF at h
  split at h <;> cases h <;> rename_i hlow <;> rw [hlow] at hw <;> exact hw

/-- Encoding undoes decoding (R100), the converse of `decode_encode`. -/
theorem encode_of_decode {w : Half} {i : Instr} (h : decode w = some i) : encode i = w := by
  have hA := formatA_fields w
  have hX := formatX_fields w
  have hXY := formatXY_fields w
  unfold decode at h
  split at h <;> rename_i hop
  -- The groups with a selector of their own: 0, 8, E, F, then 5 and 9.
  case h_1 => exact encode_of_decodeGroup0 h
  case h_9 => exact encode_of_decodeGroup8 hop h
  case h_15 => exact encode_of_decodeGroupE hop h
  case h_16 => exact encode_of_decodeGroupF hop h
  case h_6 | h_10 =>
    split at h <;> cases h
    rename_i hn
    rw [hop, hn] at hXY
    exact hXY
  -- The groups that always decode, by format, and the arm that no value of `op` reaches.
  case h_2 | h_3 | h_11 | h_12 =>
    cases h
    rw [hop] at hA
    exact hA
  case h_4 | h_5 | h_7 | h_8 | h_13 =>
    cases h
    rw [hop] at hX
    exact hX
  case h_14 =>
    cases h
    rw [hop] at hXY
    exact hXY
  case h_17 => cases h

/-! The words of the formats as fixed bits ORed with operand bits (R100), one lemma for each shape of `operandBits`. -/

theorem ofNat_reg_eq_setWidth (r : Reg) : BitVec.ofNat 16 r.val = (regBits r).setWidth 16 :=
  (BitVec.ofNat_toNat 16 (regBits r)).trans rfl

theorem formatA_eq_or (op : Nibble) (a : Addr) : formatA op a = (op ++ 0#12 : Half) ||| BitVec.ofNat 16 a.toNat := by
  apply BitVec.eq_of_getLsbD_eq
  intro k hk
  simp only [formatA, BitVec.ofNat_toNat, BitVec.getLsbD_or, BitVec.getLsbD_append, BitVec.getLsbD_setWidth]
  interval_cases k <;> simp

theorem formatX_eq_or (op : Nibble) (rx : Reg) (low : Byte) :
    formatX op rx low = (op ++ (0#4 ++ low : Addr) : Half) ||| BitVec.ofNat 16 rx.val <<< 8 := by
  apply BitVec.eq_of_getLsbD_eq
  intro k hk
  simp only [formatX, ofNat_reg_eq_setWidth, BitVec.getLsbD_or, BitVec.getLsbD_append, BitVec.getLsbD_shiftLeft,
    BitVec.getLsbD_setWidth]
  interval_cases k <;> simp

theorem formatX_imm_eq_or (op : Nibble) (rx : Reg) (imm : Byte) :
    formatX op rx imm =
      (op ++ 0#12 : Half) ||| (BitVec.ofNat 16 rx.val <<< 8 ||| BitVec.ofNat 16 imm.toNat) := by
  apply BitVec.eq_of_getLsbD_eq
  intro k hk
  simp only [formatX, ofNat_reg_eq_setWidth, BitVec.ofNat_toNat, BitVec.getLsbD_or, BitVec.getLsbD_append,
    BitVec.getLsbD_shiftLeft, BitVec.getLsbD_setWidth]
  interval_cases k <;> simp

theorem formatXY_eq_or (op : Nibble) (rx ry : Reg) (low : Nibble) :
    formatXY op rx ry low =
      (op ++ (0#8 ++ low : Addr) : Half) ||| (BitVec.ofNat 16 rx.val <<< 8 ||| BitVec.ofNat 16 ry.val <<< 4) := by
  apply BitVec.eq_of_getLsbD_eq
  intro k hk
  simp only [formatXY, ofNat_reg_eq_setWidth, BitVec.getLsbD_or, BitVec.getLsbD_append, BitVec.getLsbD_shiftLeft,
    BitVec.getLsbD_setWidth]
  interval_cases k <;> simp

theorem formatXY_n_eq_or (op : Nibble) (rx ry : Reg) (n : Nibble) :
    formatXY op rx ry n = (op ++ 0#12 : Half) |||
      (BitVec.ofNat 16 rx.val <<< 8 ||| BitVec.ofNat 16 ry.val <<< 4 ||| BitVec.ofNat 16 n.toNat) := by
  apply BitVec.eq_of_getLsbD_eq
  intro k hk
  simp only [formatXY, ofNat_reg_eq_setWidth, BitVec.ofNat_toNat, BitVec.getLsbD_or, BitVec.getLsbD_append,
    BitVec.getLsbD_shiftLeft, BitVec.getLsbD_setWidth]
  interval_cases k <;> simp

/-- Each row's fixed bits and operands, by the shape its format has. -/
theorem encode_eq_matchBits_or_operandBits (i : Instr) : encode i = (rowOf i).matchBits ||| operandBits i := by
  cases i with
  | cls | ret => rfl
  | jump addr | call addr | loadA addr | jumpV0 addr => exact formatA_eq_or _ addr
  | skipEqI rx imm | skipNeqI rx imm | loadI rx imm | addI rx imm | rndAnd rx imm =>
    exact formatX_imm_eq_or _ rx imm
  | skipEq rx ry | skipNeq rx ry | move rx ry | or rx ry | and rx ry | xor rx ry | add rx ry | sub rx ry | shr rx ry
  | subN rx ry | shl rx ry => exact formatXY_eq_or _ rx ry _
  | drawSprite rx ry n => exact formatXY_n_eq_or _ rx ry n
  | skipKeyPressed rx | skipKeyNPressed rx | getDelay rx | waitForKey rx | setDelay rx | setSound rx | addIndex rx
  | spriteLoc rx | storeBCD rx | storeRegs rx | loadRegs rx => exact formatX_eq_or _ rx _

/-- Settles O1: `decode_encode` and its converse, and the word's bits shape by shape. -/
theorem wordRoundTrip : Obligations.WordRoundTrip :=
  ⟨fun i _ => decode_encode i, fun _ _ h => encode_of_decode h, fun i _ => encode_eq_matchBits_or_operandBits i⟩

/-! The opcode table (R93). -/

theorem rowOf_mem_opcodeTable (i : Instr) : rowOf i ∈ opcodeTable := by
  cases i <;> simp [opcodeTable, rowOf]

theorem exists_rowOf_of_mem {r : OpcodeRow} (h : r ∈ opcodeTable) : ∃ i, rowOf i = r := by
  obtain ⟨i, _, hi⟩ := List.mem_map.mp h
  exact ⟨i, hi⟩

/-- Every instruction's word agrees with its row in the fixed bits, by the shape of its format (the family `WordForm`, over
all instructions). -/
theorem accepts_encode (i : Instr) : (rowOf i).accepts (encode i) = true := by
  cases i with
  | cls | ret => rfl
  | jump addr | call addr | loadA addr | jumpV0 addr => exact accepts_of_op (fieldOp_formatA _ addr)
  | skipEqI rx imm | skipNeqI rx imm | loadI rx imm | addI rx imm | rndAnd rx imm =>
    exact accepts_of_op (fieldOp_formatX _ rx imm)
  | drawSprite rx ry n => exact accepts_of_op (fieldOp_formatXY _ rx ry n)
  | skipEq rx ry | skipNeq rx ry | move rx ry | or rx ry | and rx ry | xor rx ry | add rx ry | sub rx ry | shr rx ry
  | subN rx ry | shl rx ry => exact accepts_of_sub4 (fieldOp_formatXY _ rx ry _) (fieldN_formatXY _ rx ry _)
  | skipKeyPressed rx | skipKeyNPressed rx | getDelay rx | waitForKey rx | setDelay rx | setSound rx | addIndex rx
  | spriteLoc rx | storeBCD rx | storeRegs rx | loadRegs rx =>
    exact accepts_of_sub8 (fieldOp_formatX _ rx _) (fieldImm_formatX _ rx _)

/-! The selectors of a literal word, so that `simp` reads them off a row's fixed bits and mask. -/

theorem fieldOp_ofNat (k : Nat) : fieldOp (BitVec.ofNat 16 k) = BitVec.ofNat 4 (k / 4096) := by
  apply BitVec.eq_of_toNat_eq
  rw [fieldOp_toNat, BitVec.toNat_ofNat, BitVec.toNat_ofNat]
  omega

theorem fieldN_ofNat (k : Nat) : fieldN (BitVec.ofNat 16 k) = BitVec.ofNat 4 k := by
  apply BitVec.eq_of_toNat_eq
  rw [fieldN_toNat, BitVec.toNat_ofNat, BitVec.toNat_ofNat]
  omega

theorem fieldImm_ofNat (k : Nat) : fieldImm (BitVec.ofNat 16 k) = BitVec.ofNat 8 k := by
  apply BitVec.eq_of_toNat_eq
  rw [fieldImm_toNat, BitVec.toNat_ofNat, BitVec.toNat_ofNat]
  omega

/-! A row that accepts a word fixes each selector that its mask covers. -/

theorem fieldOp_of_accepts {r : OpcodeRow} {w : Half} (h : r.accepts w = true) (hmask : fieldOp r.mask = 0xF#4) :
    fieldOp w = fieldOp r.matchBits := by
  have hand : fieldOp (w &&& r.mask) = fieldOp w &&& fieldOp r.mask := BitVec.extractLsb'_and
  rw [← eq_of_beq h, hand, hmask]
  exact BitVec.and_allOnes.symm

theorem fieldN_of_accepts {r : OpcodeRow} {w : Half} (h : r.accepts w = true) (hmask : fieldN r.mask = 0xF#4) :
    fieldN w = fieldN r.matchBits := by
  have hand : fieldN (w &&& r.mask) = fieldN w &&& fieldN r.mask := BitVec.extractLsb'_and
  rw [← eq_of_beq h, hand, hmask]
  exact BitVec.and_allOnes.symm

theorem fieldImm_of_accepts {r : OpcodeRow} {w : Half} (h : r.accepts w = true) (hmask : fieldImm r.mask = 0xFF#8) :
    fieldImm w = fieldImm r.matchBits := by
  have hand : fieldImm (w &&& r.mask) = fieldImm w &&& fieldImm r.mask := BitVec.extractLsb'_and
  rw [← eq_of_beq h, hand, hmask]
  exact BitVec.and_allOnes.symm

/-- A row that accepts a word gives its instruction: the selectors it fixes lead `decode` to the row's own arm. -/
theorem decode_of_accepts {w : Half} (i : Instr) (h : (rowOf i).accepts w = true) :
    ∃ j, decode w = some j ∧ rowOf j = rowOf i := by
  have hop := fieldOp_of_accepts h (by cases i <;> simp [rowOf, fieldOp_ofNat])
  cases i with
  | cls =>
    obtain rfl : w = encode .cls := BitVec.and_allOnes.symm.trans (eq_of_beq h)
    exact ⟨_, decode_encode .cls, rfl⟩
  | ret =>
    obtain rfl : w = encode .ret := BitVec.and_allOnes.symm.trans (eq_of_beq h)
    exact ⟨_, decode_encode .ret, rfl⟩
  | jump | call | loadA | jumpV0 | skipEqI | skipNeqI | loadI | addI | rndAnd | drawSprite =>
    simp [decode, hop, rowOf, fieldOp_ofNat]
  | skipEq | skipNeq =>
    have hn := fieldN_of_accepts h (by simp [rowOf, fieldN_ofNat])
    simp [decode, hop, hn, rowOf, fieldOp_ofNat, fieldN_ofNat]
  | move | or | and | xor | add | sub | shr | subN | shl =>
    have hn := fieldN_of_accepts h (by simp [rowOf, fieldN_ofNat])
    simp [decode, decodeGroup8, hop, hn, rowOf, fieldOp_ofNat, fieldN_ofNat]
  | skipKeyPressed | skipKeyNPressed =>
    have hlow := fieldImm_of_accepts h (by simp [rowOf, fieldImm_ofNat])
    simp [decode, decodeGroupE, hop, hlow, rowOf, fieldOp_ofNat, fieldImm_ofNat]
  | getDelay | waitForKey | setDelay | setSound | addIndex | spriteLoc | storeBCD | storeRegs | loadRegs =>
    have hlow := fieldImm_of_accepts h (by simp [rowOf, fieldImm_ofNat])
    simp [decode, decodeGroupF, hop, hlow, rowOf, fieldOp_ofNat, fieldImm_ofNat]

theorem decode_of_mem_of_accepts {w : Half} {r : OpcodeRow} (hr : r ∈ opcodeTable) (h : r.accepts w = true) :
    ∃ i, decode w = some i ∧ rowOf i = r := by
  obtain ⟨i, rfl⟩ := exists_rowOf_of_mem hr
  exact decode_of_accepts i h

theorem accepts_of_decode {w : Half} {i : Instr} (h : decode w = some i) : (rowOf i).accepts w = true := by
  rw [← encode_of_decode h]
  exact accepts_encode i

/-- Settles O2: a decoded word is its instruction's word, which the instruction's row accepts; an accepting row fixes the
selectors `decode` dispatches on. So a row is the row of what the word decodes to, and no word has two. -/
theorem tableDecidesDecoding : Obligations.TableDecidesDecoding := by
  refine ⟨rfl, fun w i h => ⟨rowOf_mem_opcodeTable i, accepts_of_decode h⟩, fun w r hr h => decode_of_mem_of_accepts hr h,
    fun w hnone => ?_, fun w r q hr hq hrw hqw => ?_⟩
  · rw [Option.eq_none_iff_forall_ne_some]
    intro i h
    have hreject := hnone _ (rowOf_mem_opcodeTable i)
    rw [accepts_of_decode h] at hreject
    cases hreject
  · obtain ⟨i, hi, rfl⟩ := decode_of_mem_of_accepts hr hrw
    obtain ⟨j, hj, rfl⟩ := decode_of_mem_of_accepts hq hqw
    rw [hi] at hj
    cases hj
    rfl

/-! Where each group of the decoder gives none (R96). -/

theorem decodeGroup0_eq_none_iff (w : Half) : decodeGroup0 w = none ↔ w.toNat ≠ 0x00E0 ∧ w.toNat ≠ 0x00EE := by
  simp only [decodeGroup0, ← BitVec.toNat_inj]
  split_ifs <;> simp_all

theorem decodeGroup8_eq_none_iff (w : Half) :
    decodeGroup8 w = none ↔ w.toNat % 16 ∈ [8, 9, 0xA, 0xB, 0xC, 0xD, 0xF] := by
  rw [← fieldN_toNat, decodeGroup8]
  have hlt : (fieldN w).toNat < 16 := BitVec.isLt _
  split <;> simp_all [← BitVec.toNat_inj]
  omega

theorem decodeGroupE_eq_none_iff (w : Half) : decodeGroupE w = none ↔ w.toNat % 256 ∉ [0x9E, 0xA1] := by
  rw [← fieldImm_toNat, decodeGroupE]
  split <;> simp_all [← BitVec.toNat_inj]

theorem decodeGroupF_eq_none_iff (w : Half) :
    decodeGroupF w = none ↔ w.toNat % 256 ∉ [0x07, 0x0A, 0x15, 0x18, 0x1E, 0x29, 0x33, 0x55, 0x65] := by
  rw [← fieldImm_toNat, decodeGroupF]
  split <;> simp_all [← BitVec.toNat_inj]

/-- Settles O3, arm by arm of `decode`: the arms without a selector always decode, the two with a zero nibble test it, and
the four groups are the lemmas above. -/
theorem illegalWordsByGroup : Obligations.IllegalWordsByGroup := by
  intro w
  rw [← fieldOp_toNat, decode]
  split <;> rename_i hop
  -- Groups 5 and 9; the arm that no value of `op` reaches; every other group.
  case h_6 | h_10 =>
    have hn : fieldN w = 0#4 ↔ w.toNat % 16 = 0 := by rw [← fieldN_toNat, ← BitVec.toNat_inj, BitVec.toNat_ofNat]
    simp [hop, hn]
  case h_17 =>
    have hlt : (fieldOp w).toNat < 16 := BitVec.isLt _
    simp_all [← BitVec.toNat_inj]
    omega
  all_goals
    simp [hop, decodeGroup0_eq_none_iff, decodeGroup8_eq_none_iff, decodeGroupE_eq_none_iff, decodeGroupF_eq_none_iff]

end Sys2Proof

/-! Execution (60_exceptions section 1): when an instruction faults, for the instructions that can, and that no other does. -/

namespace Sys2Proof.Machine

theorem exec_ret_empty (s : State) (h : s.sp.val = 0) : exec .ret s = .fault .popEmptyStack := by
  rw [exec, execRet, State.pop_empty h]
  rfl

theorem exec_spriteLoc (rx : Reg) (s : State) (h : (s.reg rx).toNat < 16) :
    exec (.spriteLoc rx) s = .next { s with i := BitVec.ofNat 16 (5 * (s.reg rx).toNat), pc := s.pc + 2#16 } := by
  rw [exec, execSpriteLoc, if_neg (Nat.not_le.mpr h)]
  rfl

theorem exec_spriteLoc_fault (rx : Reg) (s : State) (h : 16 ≤ (s.reg rx).toNat) :
    exec (.spriteLoc rx) s = .fault .invalidSprite := by
  rw [exec, execSpriteLoc, if_pos h]
  rfl

/-- StoreBCD inside memory (R146, R151). -/
theorem exec_storeBCD (rx : Reg) (s : State) (h : s.i.toNat + 2 ≤ 4095) :
    exec (.storeBCD rx) s =
      .next { s with mem := s.mem.writeBlock s.i.toNat (bcdDigits (s.reg rx)), pc := s.pc + 2#16 } := by
  rw [exec, execStoreBCD, storeAtIndex_eq, length_bcdDigits, if_pos (by omega)]

theorem exec_storeBCD_fault (rx : Reg) (s : State) (h : 4095 < s.i.toNat + 2) :
    exec (.storeBCD rx) s = .fault .memoryError := by
  rw [exec, execStoreBCD, storeAtIndex_eq, length_bcdDigits, if_neg (by omega)]

/-- StoreRegs inside memory (R146, R152). -/
theorem exec_storeRegs (rx : Reg) (s : State) (h : s.i.toNat + rx.val ≤ 4095) :
    exec (.storeRegs rx) s = .next { s with mem := s.mem.writeBlock s.i.toNat (s.regBlock rx), pc := s.pc + 2#16 } := by
  rw [exec, execStoreRegs, storeAtIndex_eq, State.length_regBlock, if_pos (by omega)]

theorem exec_storeRegs_fault (rx : Reg) (s : State) (h : 4095 < s.i.toNat + rx.val) :
    exec (.storeRegs rx) s = .fault .memoryError := by
  rw [exec, execStoreRegs, storeAtIndex_eq, State.length_regBlock, if_neg (by omega)]

/-- LoadRegs inside memory (R146, R153). -/
theorem exec_loadRegs (rx : Reg) (s : State) (h : s.i.toNat + rx.val ≤ 4095) :
    exec (.loadRegs rx) s =
      .next { s with v := loadBlock s.v 0 (s.loadBytes (rx.val + 1)), pc := s.pc + 2#16 } := by
  rw [exec, execLoadRegs, if_pos ((State.inRange_iff _ _).mpr (by omega))]
  rfl

theorem exec_loadRegs_fault (rx : Reg) (s : State) (h : 4095 < s.i.toNat + rx.val) :
    exec (.loadRegs rx) s = .fault .memoryError := by
  rw [exec, execLoadRegs, if_neg (mt (State.inRange_iff _ _).mp (by omega))]
  rfl

theorem exec_waitForKey_some (rx : Reg) (s : State) {k : Nat} (h : firstKeyPressed s.keys = some k) :
    exec (.waitForKey rx) s =
      .next { s.setReg rx (BitVec.ofNat 8 k) with status := .running, pc := s.pc + 2#16 } := by
  rw [exec, execWaitForKey, h]
  rfl

theorem exec_waitForKey_none (rx : Reg) (s : State) (h : s.keys = 0#16) :
    exec (.waitForKey rx) s = .next { s with status := .waitingForKey } := by
  rw [exec, execWaitForKey, (firstKeyPressed_eq_none_iff s.keys).mpr h]
  rfl

/-- Every fault of an instruction, with its cause: the statement of `Obligations.ExecuteFaultCauses` for one instruction. -/
def FaultCause (i : Instr) (s : State) (f : Fault) : Prop :=
  ((∃ a, i = .call a) ∧ s.sp.val = 16 ∧ f = .stackOverflow) ∨
  (i = .ret ∧ s.sp.val = 0 ∧ f = .popEmptyStack) ∨
  (∃ rx, i = .spriteLoc rx ∧ 16 ≤ (s.reg rx).toNat ∧ f = .invalidSprite) ∨
  (∃ rx, i = .storeBCD rx ∧ 4095 < s.i.toNat + 2 ∧ f = .memoryError) ∨
  (∃ rx, i = .storeRegs rx ∧ 4095 < s.i.toNat + rx.val ∧ f = .memoryError) ∨
  (∃ rx, i = .loadRegs rx ∧ 4095 < s.i.toNat + rx.val ∧ f = .memoryError) ∨
  (∃ rx ry n, i = .drawSprite rx ry n ∧ n ≠ 0#4 ∧ 4096 < s.i.toNat + n.toNat ∧ f = .memoryError)

variable {i : Instr} {s t : State} {f : Fault}

theorem exec_fault_of_cause (h : FaultCause i s f) : exec i s = .fault f := by
  rcases h with ⟨⟨a, rfl⟩, hsp, rfl⟩ | ⟨rfl, hsp, rfl⟩ | ⟨rx, rfl, hr, rfl⟩ | ⟨rx, rfl, hr, rfl⟩ | ⟨rx, rfl, hr, rfl⟩ |
    ⟨rx, rfl, hr, rfl⟩ | ⟨rx, ry, n, rfl, hn, hr, rfl⟩
  · exact exec_call_full a s hsp
  · exact exec_ret_empty s hsp
  · exact exec_spriteLoc_fault rx s hr
  · exact exec_storeBCD_fault rx s hr
  · exact exec_storeRegs_fault rx s hr
  · exact exec_loadRegs_fault rx s hr
  · exact exec_drawSprite_fault rx ry n s hn hr

/-- An instruction answers a next state, or it faults for one of the causes: there is no third outcome. -/
theorem exec_next_or_fault (i : Instr) (s : State) :
    (∃ t, exec i s = .next t) ∨ ∃ f, FaultCause i s f := by
  cases i with
  | call addr =>
    rcases Nat.lt_or_ge s.sp.val 16 with h | h
    · exact .inl ⟨_, exec_call addr s h⟩
    · exact .inr ⟨_, .inl ⟨⟨addr, rfl⟩, by omega, rfl⟩⟩
  | ret =>
    rcases Nat.eq_zero_or_pos s.sp.val with h | h
    · exact .inr ⟨_, .inr (.inl ⟨rfl, h, rfl⟩)⟩
    · exact .inl ⟨_, exec_ret s (k := s.sp.val - 1) (by omega) (by omega)⟩
  | spriteLoc rx =>
    rcases Nat.lt_or_ge (s.reg rx).toNat 16 with h | h
    · exact .inl ⟨_, exec_spriteLoc rx s h⟩
    · exact .inr ⟨_, .inr (.inr (.inl ⟨rx, rfl, h, rfl⟩))⟩
  | storeBCD rx =>
    rcases Nat.lt_or_ge 4095 (s.i.toNat + 2) with h | h
    · exact .inr ⟨_, .inr (.inr (.inr (.inl ⟨rx, rfl, h, rfl⟩)))⟩
    · exact .inl ⟨_, exec_storeBCD rx s h⟩
  | storeRegs rx =>
    rcases Nat.lt_or_ge 4095 (s.i.toNat + rx.val) with h | h
    · exact .inr ⟨_, .inr (.inr (.inr (.inr (.inl ⟨rx, rfl, h, rfl⟩))))⟩
    · exact .inl ⟨_, exec_storeRegs rx s h⟩
  | loadRegs rx =>
    rcases Nat.lt_or_ge 4095 (s.i.toNat + rx.val) with h | h
    · exact .inr ⟨_, .inr (.inr (.inr (.inr (.inr (.inl ⟨rx, rfl, h, rfl⟩)))))⟩
    · exact .inl ⟨_, exec_loadRegs rx s h⟩
  | drawSprite rx ry n =>
    by_cases h : n = 0#4 ∨ s.i.toNat + n.toNat ≤ 4096
    · obtain ⟨_, _, _, hnext⟩ := exec_drawSprite rx ry n s h
      exact .inl ⟨_, hnext⟩
    · obtain ⟨hn, hr⟩ := not_or.mp h
      exact .inr ⟨_, .inr (.inr (.inr (.inr (.inr (.inr ⟨rx, ry, n, rfl, hn, by omega, rfl⟩)))))⟩
  | waitForKey rx =>
    cases hk : firstKeyPressed s.keys with
    | none => exact .inl ⟨_, exec_waitForKey_none rx s ((firstKeyPressed_eq_none_iff s.keys).mp hk)⟩
    | some k => exact .inl ⟨_, exec_waitForKey_some rx s hk⟩
  | _ => exact .inl ⟨_, rfl⟩

theorem exec_fault_iff : exec i s = .fault f ↔ FaultCause i s f := by
  refine ⟨fun h => ?_, exec_fault_of_cause⟩
  rcases exec_next_or_fault i s with ⟨t, ht⟩ | ⟨g, hg⟩
  · rw [ht] at h
    cases h
  · rw [exec_fault_of_cause hg] at h
    cases h
    exact hg

theorem exec_ne_refused (r : Refusal) : exec i s ≠ .refused r := by
  intro h
  rcases exec_next_or_fault i s with ⟨t, ht⟩ | ⟨g, hg⟩
  · rw [ht] at h
    cases h
  · rw [exec_fault_of_cause hg] at h
    cases h

/-- NotImplemented is no instruction's fault (R219). -/
theorem FaultCause.ne_notImplemented (h : FaultCause i s f) : f ≠ .notImplemented := by
  rcases h with ⟨_, _, rfl⟩ | ⟨_, _, rfl⟩ | ⟨_, _, _, rfl⟩ | ⟨_, _, _, rfl⟩ | ⟨_, _, _, rfl⟩ | ⟨_, _, _, rfl⟩ |
    ⟨_, _, _, _, _, _, rfl⟩ <;> exact nofun

/-- Outside Halted a Tick is the fetched instruction's own (R200). -/
theorem tick_of_fetchInstr_ok (hrun : s.status ≠ .halted) (hi : fetchInstr s = .ok i) :
    tick s = exec i s.countCycle := by
  have hi' : fetchInstr s.countCycle = .ok i := hi
  rw [tick, if_neg hrun, hi']

theorem tick_of_halted (h : s.status = .halted) : tick s = .next s := if_pos h

/-- When a step faults, and with what: the Cpu runs, and the fetch fails or the fetched instruction has a cause. Nothing here
looks at `cycles`, nor at the status but for Halted. -/
theorem step_fault_iff : step s = .fault f ↔
    s.status ≠ .halted ∧ (fetchInstr s = .error f ∨ ∃ i, fetchInstr s = .ok i ∧ FaultCause i s f) := by
  constructor
  · intro h
    have htick : tick s = .fault f := step_fault.mp h
    rcases tick_cases s with ⟨_, ht⟩ | ⟨hrun, g, hg, ht⟩ | ⟨hrun, i, hi, ht⟩
    · rw [ht] at htick
      cases htick
    · rw [ht] at htick
      cases htick
      exact ⟨hrun, .inl hg⟩
    · rw [ht] at htick
      exact ⟨hrun, .inr ⟨i, hi, (exec_fault_iff (s := s.countCycle)).mp htick⟩⟩
  · rintro ⟨hrun, hfetch | ⟨i, hi, hcause⟩⟩
    · exact step_of_fetchInstr_error hrun hfetch
    · exact step_fault.mpr ((tick_of_fetchInstr_ok hrun hi).trans (exec_fault_of_cause hcause))

end Sys2Proof.Machine

namespace Sys2Proof

open Machine

/-- Settles O10: the fault lemma of each of the seven instructions, and that outside those causes `exec` answers a next
state. -/
theorem executeFaultCauses : Obligations.ExecuteFaultCauses := fun _ _ _ => exec_fault_iff

/-- Settles O11: a step's fault is a fetch fault or an execute fault, of which none is NotImplemented; and a Tick that refuses
would be an instruction that does. -/
theorem noUnusedFaultNoRefusal : Obligations.NoUnusedFaultNoRefusal := by
  intro s
  constructor
  · intro h
    obtain ⟨_, hfetch | ⟨i, _, hcause⟩⟩ := step_fault_iff.mp h
    · rcases fetchInstr_error.mp hfetch with ⟨_, hf⟩ | ⟨_, _, hf⟩ <;> cases hf
    · exact hcause.ne_notImplemented rfl
  · intro r h
    have hr : tick s = .refused r := step_refused.mp h
    rcases tick_cases s with ⟨_, ht⟩ | ⟨_, _, _, ht⟩ | ⟨_, i, _, ht⟩
    · rw [ht] at hr
      cases hr
    · rw [ht] at hr
      cases hr
    · exact exec_ne_refused r (ht.symm.trans hr)

/-- Settles O9: what decides that a step faults does not involve `cycles`, the one thing the faulting Tick has changed. -/
theorem faultChangesOnlyCycles : Obligations.FaultChangesOnlyCycles := by
  intro s f h
  have hfault := step_fault_iff.mp h
  exact ⟨advanceLoop_of_step_fault h, (step_fault_iff (s := s.countCycle)).mpr hfault⟩

/-- Settles O5: the bytes at `pc` are the word the fetch reads, so the Tick is `exec` of its instruction after the count. -/
theorem stepRunsDecoded : Obligations.StepRunsDecoded := by
  intro s i hrun hpc hdecode _
  have hfetch : fetchInstr s = .ok i := fetchInstr_ok.mpr ⟨hpc, (Memory.readWord_eq _ _).symm ▸ hdecode⟩
  have htick := tick_of_fetchInstr_ok hrun hfetch
  exact ⟨fun t ht => step_next.mpr ⟨t, htick.trans ht, rfl⟩, fun f hf => step_fault.mpr (htick.trans hf)⟩

/-- Settles O7: the bounds check fails before anything is read. -/
theorem fetchOutsideMemoryFaults : Obligations.FetchOutsideMemoryFaults := by
  intro s n hrun hpc
  have hstep : step s = .fault .memoryError :=
    step_of_fetchInstr_error hrun (fetchInstr_error.mpr (.inl ⟨hpc, rfl⟩))
  exact ⟨hstep, advanceLoop_of_step_fault hstep n⟩

/-- Settles O8: in Halted the Tick answers the state it was given, so the turn is its divider step. -/
theorem haltedTickChangesNothing : Obligations.HaltedTickChangesNothing :=
  ⟨fun s h => ⟨tick_of_halted h, step_next.mpr ⟨s, tick_of_halted h, rfl⟩⟩, fun _ => ⟨rfl, rfl⟩⟩

end Sys2Proof

/-! Frames over all instructions (10_state section 1): the new `pc`, and what each part of the state is written by. -/

namespace Sys2Proof.Machine

variable {i : Instr} {s t : State}

/-- WaitForKey's two outcomes (R184) by the key mask itself. -/
theorem exec_waitForKey_cases {rx : Reg} (ht : exec (.waitForKey rx) s = .next t) :
    (s.keys = 0#16 ∧ t = { s with status := .waitingForKey }) ∨
      s.keys ≠ 0#16 ∧ ∃ k, firstKeyPressed s.keys = some k ∧
        t = { s.setReg rx (BitVec.ofNat 8 k) with status := .running, pc := s.pc + 2#16 } := by
  rcases exec_waitForKey_next ht with ⟨hnone, rfl⟩ | ⟨k, hsome, rfl⟩
  · exact .inl ⟨(firstKeyPressed_eq_none_iff _).mp hnone, rfl⟩
  · refine .inr ⟨fun hkeys => ?_, k, hsome, rfl⟩
    rw [(firstKeyPressed_eq_none_iff _).mpr hkeys] at hsome
    cases hsome

theorem keyDownAt_eq_keyHeld (s : State) (rx : Reg) : keyDownAt s.keys (s.reg rx) = keyHeld s rx := by
  simp [keyDownAt, keyHeld, keyIndex]

/-- JumpV0's sum (R114) by value: it does not reach 2^16. -/
theorem byteOperand_add_addrOperand (b : Byte) (addr : Addr) :
    byteOperand b + addrOperand addr = BitVec.ofNat 16 (b.toNat + addr.toNat) := by
  rw [BitVec.ofNat_add, BitVec.ofNat_toNat, BitVec.ofNat_toNat]
  rfl

/-- The table of R23: each skip by its condition, the transfers by their target, and every other instruction by `pc + 2`. -/
theorem exec_next_pc (ht : exec i s = .next t) : t.pc = nextPcOf i s := by
  cases i with
  | skipEqI | skipNeqI | skipEq | skipNeq =>
    simp only [exec, execSkipEqI, execSkipNeqI, execSkipEq, execSkipNeq, skipWhen_eq] at ht
    cases ht
    rfl
  | skipKeyPressed | skipKeyNPressed =>
    simp only [exec, execSkipKeyPressed, execSkipKeyNPressed, skipWhen_eq, keyDownAt_eq_keyHeld] at ht
    cases ht
    rfl
  | jump addr =>
    cases ht
    exact addrOperand_eq_ofNat addr
  | jumpV0 addr =>
    cases ht
    exact byteOperand_add_addrOperand _ addr
  | call addr =>
    obtain ⟨_, rfl⟩ := exec_call_next ht
    exact addrOperand_eq_ofNat addr
  | ret =>
    obtain ⟨k, hk, hsp, rfl⟩ := exec_ret_next ht
    simp [nextPcOf, hsp, hk]
  | waitForKey rx =>
    rcases exec_waitForKey_cases ht with ⟨hkeys, rfl⟩ | ⟨hkeys, _, _, rfl⟩
    · exact (if_pos hkeys).symm
    · exact (if_neg hkeys).symm
  | spriteLoc =>
    obtain ⟨_, rfl⟩ := exec_spriteLoc_next ht
    rfl
  | storeBCD | storeRegs =>
    obtain ⟨_, rfl⟩ := storeAtIndex_next ht
    rfl
  | loadRegs =>
    obtain ⟨_, rfl⟩ := exec_loadRegs_next ht
    rfl
  | drawSprite =>
    obtain ⟨_, _, _, _, rfl⟩ := exec_drawSprite_next ht
    rfl
  | _ => cases ht; rfl

/-- A register outside the loaded block keeps its value (R153). -/
theorem reg_loadBlock_above {rx r : Reg} (h : rx < r) (s : State) :
    (loadBlock s.v 0 (s.loadBytes (rx.val + 1)))[r.val] = s.reg r := by
  rw [getElem_loadBlock, if_pos (Nat.zero_le _), List.getD_eq_default]
  · rfl
  · rw [State.loadBytes, Memory.length_readBlock]
    exact h

theorem exec_next_reg (ht : exec i s = .next t) {r : Reg} (hr : r ∉ destRegs i) : t.reg r = s.reg r := by
  cases i with
  | loadI | addI | move | or | and | xor | rndAnd | getDelay =>
    cases ht
    exact State.reg_setReg_other _ _ (List.ne_of_not_mem_cons hr)
  | add rx ry | sub rx ry | subN rx ry =>
    obtain ⟨hrx, hflag⟩ : r ≠ rx ∧ r ≠ 15 := by simpa [destRegs] using hr
    cases ht
    rw [State.reg_setPc, State.reg_setFlag_other _ _ hflag, State.reg_setReg_other _ _ hrx]
  | shr rx ry | shl rx ry =>
    obtain ⟨hrx, hflag⟩ : r ≠ rx ∧ r ≠ 15 := by simpa [destRegs] using hr
    cases ht
    rw [State.reg_setPc, State.reg_setReg_other _ _ hrx, State.reg_setFlag_other _ _ hflag]
  | waitForKey rx =>
    rcases exec_waitForKey_next ht with ⟨_, rfl⟩ | ⟨k, _, rfl⟩
    · rfl
    · exact State.reg_setReg_other s _ (List.ne_of_not_mem_cons hr)
  | loadRegs rx =>
    obtain ⟨_, rfl⟩ := exec_loadRegs_next ht
    exact reg_loadBlock_above (by simpa [destRegs] using hr) s
  | drawSprite =>
    obtain ⟨_, _, hit, _, rfl⟩ := exec_drawSprite_next ht
    exact State.reg_setFlag_other s (collisionFlag hit) (List.ne_of_not_mem_cons hr)
  | call =>
    obtain ⟨_, rfl⟩ := exec_call_next ht
    rfl
  | ret =>
    obtain ⟨_, _, _, rfl⟩ := exec_ret_next ht
    rfl
  | spriteLoc =>
    obtain ⟨_, rfl⟩ := exec_spriteLoc_next ht
    rfl
  | storeBCD | storeRegs =>
    obtain ⟨_, rfl⟩ := storeAtIndex_next ht
    rfl
  | _ => cases ht; rfl

/-- Only the two stores write memory, each its block at `I` (R145). -/
theorem exec_next_stores (ht : exec i s = .next t) :
    (∃ bytes, bytes.length = storedBytes i ∧ storeAtIndex bytes s = .next t) ∨ storedBytes i = 0 ∧ t.mem = s.mem := by
  cases i with
  | storeBCD => exact .inl ⟨_, rfl, ht⟩
  | storeRegs rx => exact .inl ⟨_, State.length_regBlock s rx, ht⟩
  | call =>
    obtain ⟨_, rfl⟩ := exec_call_next ht
    exact .inr ⟨rfl, rfl⟩
  | ret =>
    obtain ⟨_, _, _, rfl⟩ := exec_ret_next ht
    exact .inr ⟨rfl, rfl⟩
  | waitForKey =>
    rcases exec_waitForKey_next ht with ⟨_, rfl⟩ | ⟨_, _, rfl⟩ <;> exact .inr ⟨rfl, rfl⟩
  | spriteLoc =>
    obtain ⟨_, rfl⟩ := exec_spriteLoc_next ht
    exact .inr ⟨rfl, rfl⟩
  | loadRegs =>
    obtain ⟨_, rfl⟩ := exec_loadRegs_next ht
    exact .inr ⟨rfl, rfl⟩
  | drawSprite =>
    obtain ⟨_, _, _, _, rfl⟩ := exec_drawSprite_next ht
    exact .inr ⟨rfl, rfl⟩
  | _ =>
    cases ht
    exact .inr ⟨rfl, rfl⟩

end Sys2Proof.Machine

namespace Sys2Proof

open Machine

/-- Settles O12: row by row the table, as the inversion of each instruction gives it. -/
theorem programCounterTable : Obligations.ProgramCounterTable := fun _ _ _ ht => exec_next_pc ht

/-- Settles O43: each instruction writes its destinations through `setReg`, `setFlag` or `loadBlock`, and those keep the
others. -/
theorem registerFrame : Obligations.RegisterFrame := fun _ _ _ ht _ hr => exec_next_reg ht hr

/-- Settles O44: a store writes its block and nothing beside it, and what does not store keeps memory as it is. -/
theorem memoryFrame : Obligations.MemoryFrame := by
  intro i s t ht a ha
  rcases exec_next_stores ht with ⟨bytes, hlength, hstore⟩ | ⟨_, hmem⟩
  · obtain ⟨_, rfl⟩ := storeAtIndex_next hstore
    exact Memory.read_writeBlock_other (hlength ▸ ha)
  · rw [State.readByte, hmem]
    rfl

/-- Settles O45: the state each instruction answers, field by field. -/
theorem specialStateFrame : Obligations.SpecialStateFrame := by
  intro i s t ht
  cases i with
  | call =>
    obtain ⟨_, rfl⟩ := exec_call_next ht
    simp [usesStack]
  | ret =>
    obtain ⟨_, _, _, rfl⟩ := exec_ret_next ht
    simp [usesStack]
  | waitForKey =>
    rcases exec_waitForKey_next ht with ⟨_, rfl⟩ | ⟨_, _, rfl⟩ <;> simp
  | spriteLoc =>
    obtain ⟨_, rfl⟩ := exec_spriteLoc_next ht
    simp [writesIndex]
  | storeBCD | storeRegs =>
    obtain ⟨_, rfl⟩ := storeAtIndex_next ht
    simp
  | loadRegs =>
    obtain ⟨_, rfl⟩ := exec_loadRegs_next ht
    simp
  | drawSprite =>
    obtain ⟨_, _, _, _, rfl⟩ := exec_drawSprite_next ht
    simp [writesDisplay]
  | _ =>
    cases ht
    simp [writesIndex, writesDisplay]

/-! Control transfer (40_control_transfer): Ret, JumpV0, SkipNeq and the key skips. -/

/-- Settles O15: the pop with a live entry, and the pop of an empty stack. -/
theorem retPopsReturn : Obligations.RetPopsReturn :=
  ⟨encodes_of_eq_encode rfl, fun s k hk => exec_ret s k.isLt hk, exec_ret_empty⟩

/-- Settles O16: Call raises the stack pointer past the entry it wrote, and Ret reads that entry back. -/
theorem retResumesAfterCall : Obligations.RetResumesAfterCall := by
  intro addr s t u ht hstack hsp
  obtain ⟨h, rfl⟩ := exec_call_next ht
  refine ⟨_, exec_ret u h (congrArg Fin.val hsp), ?_, rfl⟩
  simp [hstack]

/-- Settles O17: the sum of a byte and a 12-bit address stays below 2^16. -/
theorem jumpV0AddsV0 : Obligations.JumpV0AddsV0 := by
  intro addr s
  refine ⟨encodes_of_eq_encode (wordA_eq 0xB addr), _, rfl, rfl, ?_⟩
  have hbyte := (s.reg 0).isLt
  have haddr := addr.isLt
  rw [State.setPc_pc, Option.getD_some, byteOperand_add_addrOperand, BitVec.toNat_ofNat]
  omega

/-- Settles O19: each skip is `skipWhen` on its own condition, the key number being the register's low four bits. -/
theorem unequalAndKeySkips : Obligations.UnequalAndKeySkips := by
  intro rx ry s
  refine ⟨encodes_of_eq_encode (wordXY_eq 9 rx ry 0#4), encodes_of_eq_encode (wordX_eq 0xE rx 0x9E#8),
    encodes_of_eq_encode (wordX_eq 0xE rx 0xA1#8), skipWhen_decide (s.reg rx ≠ s.reg ry) s, ?_, ?_⟩
  · rw [exec, execSkipKeyPressed, skipWhen_eq, keyDownAt_eq_keyHeld]
    rfl
  · simp only [exec, execSkipKeyNPressed, skipWhen_eq, keyDownAt_eq_keyHeld, Bool.not_eq_true']
    rfl

end Sys2Proof

/-! Load and ALU (41_load_alu): the two write orders that were missing, and what the shifts do. -/

namespace Sys2Proof.Machine

/-- The frame of an instruction that writes one register. -/
theorem registersOnly_setReg (rx : Reg) (b : Byte) (s : State) :
    RegistersOnly [rx] s ((s.setReg rx b).setPc (s.pc + 2#16)) where
  rest := rfl
  regs _ hr := State.reg_setReg_other s b (List.ne_of_not_mem_cons hr)
  bytes _ := rfl

/-- The frame of Shr and Shl, which write the flag first (R133, R135). -/
theorem registersOnly_setFlag_setReg (rx : Reg) (f b : Byte) (s : State) :
    RegistersOnly [rx, 15] s (((s.setFlag f).setReg rx b).setPc (s.pc + 2#16)) where
  rest := rfl
  regs r hr := by
    obtain ⟨hrx, hflag⟩ : r ≠ rx ∧ r ≠ 15 := by simpa using hr
    rw [State.reg_setPc, State.reg_setReg_other _ _ hrx, State.reg_setFlag_other _ _ hflag]
  bytes _ := rfl

theorem exec_shr (rx ry : Reg) (s : State) :
    exec (.shr rx ry) s = .next (((s.setFlag (shrFlag (s.reg rx))).setReg rx
      ((s.setFlag (shrFlag (s.reg rx))).reg rx >>> 1)).setPc (s.pc + 2#16)) := rfl

theorem exec_shl (rx ry : Reg) (s : State) :
    exec (.shl rx ry) s = .next (((s.setFlag (shlFlag (s.reg rx))).setReg rx
      ((s.setFlag (shlFlag (s.reg rx))).reg rx <<< 1)).setPc (s.pc + 2#16)) := rfl

theorem subFlag_toNat (a b : Byte) : (subFlag a b).toNat = if b.toNat < a.toNat then 1 else 0 := by
  simp only [subFlag, flagByte_toNat, decide_eq_true_eq]

theorem shrFlag_toNat (a : Byte) : (shrFlag a).toNat = a.toNat % 2 := by
  rw [shrFlag, flagByte_toNat, BitVec.getLsbD, Nat.testBit_zero]
  rcases Nat.mod_two_eq_zero_or_one a.toNat with h | h <;> simp [h]

theorem shlFlag_toNat (a : Byte) : (shlFlag a).toNat = a.toNat / 128 := by
  have ha := a.isLt
  rw [shlFlag, flagByte_toNat, BitVec.getLsbD, Nat.testBit_eq_decide_div_mod_eq]
  have : a.toNat / 2 ^ 7 % 2 = a.toNat / 128 := by omega
  simp only [this, decide_eq_true_eq]
  split <;> omega

/-- The difference and flag of one subtraction, for either order of the operands (R132, R134). -/
theorem subtract_results (rx : Reg) (a b : Byte) (s : State) :
    let t := ((s.setReg rx (a - b)).setFlag (subFlag a b)).setPc (s.pc + 2#16)
    RegistersOnly [rx, 15] s t ∧ (rx ≠ 15 → (t.reg rx).toNat = (256 + a.toNat - b.toNat) % 256) ∧
      (t.reg 15).toNat = if b.toNat < a.toNat then 1 else 0 := by
  refine ⟨registersOnly_setReg_setFlag rx _ _ s, fun hrx => ?_, ?_⟩
  · have hb := b.isLt
    rw [State.reg_setPc, State.reg_setFlag_other _ _ hrx, State.reg_setReg_self, BitVec.toNat_sub]
    congr 1
    omega
  · rw [State.reg_setPc, State.reg_setFlag_self, subFlag_toNat]

/-- One shift `g` in place, the flag `f` written before `V[rx]` is read: with `rx = 15` it is `f` that is shifted (R137). -/
theorem shift_results (rx : Reg) (f : Byte) (g : Byte → Byte) (s : State) :
    let t := ((s.setFlag f).setReg rx (g ((s.setFlag f).reg rx))).setPc (s.pc + 2#16)
    RegistersOnly [rx, 15] s t ∧ (rx ≠ 15 → t.reg rx = g (s.reg rx) ∧ t.reg 15 = f) ∧ (rx = 15 → t.reg 15 = g f) := by
  refine ⟨registersOnly_setFlag_setReg rx _ _ s, fun hrx => ⟨?_, ?_⟩, ?_⟩
  · rw [State.reg_setPc, State.reg_setReg_self, State.reg_setFlag_other _ _ hrx]
  · rw [State.reg_setPc, State.reg_setReg_other _ _ (Ne.symm hrx), State.reg_setFlag_self]
  · rintro rfl
    rw [State.reg_setPc, State.reg_setReg_self, State.reg_setFlag_self]

end Sys2Proof.Machine

namespace Sys2Proof

open Machine

/-- Settles O20: each is one register write of the value the rule names. -/
theorem loadsAndLogicResults : Obligations.LoadsAndLogicResults := by
  refine ⟨fun rx imm s => ?_, fun rx ry s => ?_⟩
  · refine ⟨encodes_of_eq_encode (wordX_eq 6 rx imm), encodes_of_eq_encode (wordX_eq 7 rx imm),
      ⟨_, rfl, registersOnly_setReg rx _ s, State.reg_setReg_self s rx _⟩,
      ⟨_, rfl, registersOnly_setReg rx _ s, ?_⟩⟩
    rw [← BitVec.toNat_add]
    exact congrArg BitVec.toNat (State.reg_setReg_self s rx _)
  · exact ⟨encodes_of_eq_encode (wordXY_eq 8 rx ry 0#4), encodes_of_eq_encode (wordXY_eq 8 rx ry 1#4),
      encodes_of_eq_encode (wordXY_eq 8 rx ry 2#4), encodes_of_eq_encode (wordXY_eq 8 rx ry 3#4),
      ⟨_, rfl, registersOnly_setReg rx _ s, State.reg_setReg_self s rx _⟩,
      ⟨_, rfl, registersOnly_setReg rx _ s, State.reg_setReg_self s rx _⟩,
      ⟨_, rfl, registersOnly_setReg rx _ s, State.reg_setReg_self s rx _⟩,
      ⟨_, rfl, registersOnly_setReg rx _ s, State.reg_setReg_self s rx _⟩⟩

/-- Settles O22: both are the same subtraction, SubN with the operands exchanged. -/
theorem subtractResultsAndFlag : Obligations.SubtractResultsAndFlag := fun rx ry s =>
  ⟨encodes_of_eq_encode (wordXY_eq 8 rx ry 5#4), encodes_of_eq_encode (wordXY_eq 8 rx ry 7#4),
    ⟨_, rfl, subtract_results rx (s.reg rx) (s.reg ry) s⟩, ⟨_, rfl, subtract_results rx (s.reg ry) (s.reg rx) s⟩⟩

/-- Settles O23: both are one shift in place, by value; a flag halved is 0. -/
theorem shiftResultsAndFlag : Obligations.ShiftResultsAndFlag := by
  intro rx ry s
  obtain ⟨hrFrame, hrOther, hrFlag⟩ := shift_results rx (shrFlag (s.reg rx)) (· >>> 1) s
  obtain ⟨hlFrame, hlOther, hlFlag⟩ := shift_results rx (shlFlag (s.reg rx)) (· <<< 1) s
  have hhalf (b : Byte) : (b >>> 1).toNat = b.toNat / 2 := by simp [Nat.shiftRight_eq_div_pow]
  have hdouble (b : Byte) : (b <<< 1).toNat = 2 * b.toNat % 256 := by simp [Nat.shiftLeft_eq, Nat.mul_comm]
  refine ⟨encodes_of_eq_encode (wordXY_eq 8 rx ry 6#4), encodes_of_eq_encode (wordXY_eq 8 rx ry 0xE#4),
    ⟨_, exec_shr rx ry s, hrFrame, fun hrx => ?_, fun hrx => ?_⟩, ⟨_, exec_shl rx ry s, hlFrame, fun hrx => ?_, fun hrx => ?_⟩⟩
  · obtain ⟨hreg, hflag⟩ := hrOther hrx
    exact ⟨(congrArg BitVec.toNat hreg).trans (hhalf _), (congrArg BitVec.toNat hflag).trans (shrFlag_toNat _)⟩
  · rw [hrFlag hrx, hhalf, shrFlag_toNat]
    omega
  · obtain ⟨hreg, hflag⟩ := hlOther hrx
    exact ⟨(congrArg BitVec.toNat hreg).trans (hdouble _), (congrArg BitVec.toNat hflag).trans (shlFlag_toNat _)⟩
  · have hb := (s.reg rx).isLt
    rw [hlFlag hrx, hdouble, shlFlag_toNat]
    omega

end Sys2Proof

/-! Index register and memory (42_index_memory): what the blocks written and read hold, byte by byte. -/

namespace Sys2Proof.Machine

variable {rx k : Reg} {s t : State}

theorem State.lt_length_regBlock (s : State) (h : k ≤ rx) : k.val < (s.regBlock rx).length := by
  rw [State.length_regBlock]
  exact Nat.lt_succ_of_le h

/-- The stored block holds register `k` at its byte `k` (R152). -/
theorem read_writeBlock_regBlock (hmem : s.mem.wf = true) (hi : s.i.toNat + rx.val ≤ 4095) (h : k ≤ rx) :
    (s.mem.writeBlock s.i.toNat (s.regBlock rx)).read (s.i.toNat + k.val) = s.reg k := by
  rw [Memory.read_writeBlock_self hmem (by rw [State.length_regBlock]; omega) (s.lt_length_regBlock h),
    State.getElem_regBlock]
  rfl

/-- LoadRegs inside its block (R153). -/
theorem reg_loadBlock (h : k ≤ rx) (s : State) :
    (loadBlock s.v 0 (s.loadBytes (rx.val + 1)))[k.val] = s.readByte (s.i.toNat + k.val) := by
  have hk : k.val < (s.mem.readBlock s.base (rx.val + 1)).length := by
    rw [Memory.length_readBlock]
    exact Nat.lt_succ_of_le h
  rw [getElem_loadBlock, if_pos (Nat.zero_le _), Nat.sub_zero, State.loadBytes, List.getD_eq_getElem _ _ hk,
    Memory.getElem_readBlock]
  rfl

theorem exec_storeRegs_next (ht : exec (.storeRegs rx) s = .next t) :
    s.i.toNat + rx.val ≤ 4095 ∧ t = { s with mem := s.mem.writeBlock s.i.toNat (s.regBlock rx), pc := s.pc + 2#16 } := by
  obtain ⟨hi, ht⟩ := storeAtIndex_next ht
  rw [State.length_regBlock] at hi
  exact ⟨by omega, ht⟩

end Sys2Proof.Machine

namespace Sys2Proof

open Machine

/-- Settles O24: LoadA zero-extends its address; AddIndex is addition in 16 bits. -/
theorem indexWrites : Obligations.IndexWrites := by
  refine ⟨fun addr s => ⟨encodes_of_eq_encode (wordA_eq 0xA addr), ?_⟩,
    fun rx s => ⟨encodes_of_eq_encode (wordX_eq 0xF rx 0x1E#8), _, rfl, rfl, ?_⟩⟩
  · rw [← addrOperand_eq_ofNat]
    rfl
  · have hbyte : (byteOperand (s.reg rx)).toNat = (s.reg rx).toNat := BitVec.toNat_setWidth_of_le (by decide)
    rw [← hbyte]
    exact BitVec.toNat_add _ _

/-- Settles O25: a glyph address is at most 75. -/
theorem spriteLocPointsAtGlyph : Obligations.SpriteLocPointsAtGlyph := by
  refine fun rx s => ⟨encodes_of_eq_encode (wordX_eq 0xF rx 0x29#8), fun h => ?_, exec_spriteLoc_fault rx s⟩
  refine ⟨_, exec_spriteLoc rx s h, rfl, ?_⟩
  rw [BitVec.toNat_ofNat]
  omega

/-- Settles O26: the block written is the three digits, each below 256. -/
theorem storeBCDWritesDigits : Obligations.StoreBCDWritesDigits := by
  refine fun rx s => ⟨encodes_of_eq_encode (wordX_eq 0xF rx 0x33#8), fun hmem hi => ?_, exec_storeBCD_fault rx s⟩
  have hb := (s.reg rx).isLt
  have hdigit {k : Nat} (hk : k < 3) :
      (s.mem.writeBlock s.i.toNat (bcdDigits (s.reg rx))).read (s.i.toNat + k) = (bcdDigits (s.reg rx))[k] :=
    Memory.read_writeBlock_self hmem (by rw [length_bcdDigits]; omega) hk
  refine ⟨_, exec_storeBCD rx s hi, rfl, ?_, ?_, ?_, fun a ha => Memory.read_writeBlock_other ha⟩
  · exact (congrArg BitVec.toNat (hdigit (k := 0) (by decide))).trans (Nat.mod_eq_of_lt (by omega))
  · exact (congrArg BitVec.toNat (hdigit (k := 1) (by decide))).trans (Nat.mod_eq_of_lt (by omega))
  · exact (congrArg BitVec.toNat (hdigit (k := 2) (by decide))).trans (Nat.mod_eq_of_lt (by omega))

/-- Settles O27: one block of `rx + 1` registers at `I`. -/
theorem storeRegsWritesBlock : Obligations.StoreRegsWritesBlock := by
  refine fun rx s => ⟨encodes_of_eq_encode (wordX_eq 0xF rx 0x55#8), fun hmem hi => ?_, exec_storeRegs_fault rx s⟩
  refine ⟨_, exec_storeRegs rx s hi, rfl, fun k hk => read_writeBlock_regBlock hmem hi hk, fun a ha => ?_⟩
  exact Memory.read_writeBlock_other (by rw [State.length_regBlock]; omega)

/-- Settles O28: the block read from `I`, inside it and above it. -/
theorem loadRegsReadsBlock : Obligations.LoadRegsReadsBlock := by
  refine fun rx s => ⟨encodes_of_eq_encode (wordX_eq 0xF rx 0x65#8), fun hi => ?_, exec_loadRegs_fault rx s⟩
  exact ⟨_, exec_loadRegs rx s hi, rfl, fun k hk => reg_loadBlock hk s, fun k hk => reg_loadBlock_above hk s⟩

/-- Settles O29: each loaded byte is the byte the store left there, which is the register stored. -/
theorem loadRestoresStored : Obligations.LoadRestoresStored := by
  intro rx s t u hmem ht humem hui
  obtain ⟨hi, rfl⟩ := exec_storeRegs_next ht
  refine ⟨_, exec_loadRegs rx u (hui ▸ hi), fun k hk => (reg_loadBlock hk u).trans ?_⟩
  rw [State.readByte, humem, hui]
  exact read_writeBlock_regBlock hmem hi hk

/-- Settles O30: `pc` and `pc + 1` are the addresses of two stored bytes, both inside memory. -/
theorem fetchSeesStoredBytes : Obligations.FetchSeesStoredBytes := by
  intro rx j k s t hmem ht hk hjk hpc
  obtain ⟨hi, rfl⟩ := exec_storeRegs_next ht
  have hkrx : k.val ≤ rx.val := hk
  have hj : j ≤ rx := Fin.le_def.mpr (by omega)
  rw [fetchWord_of_pc_lt (by rw [hpc]; omega), hpc, read_writeBlock_regBlock hmem hi hj, Nat.add_assoc, ← hjk,
    read_writeBlock_regBlock hmem hi hk]

end Sys2Proof

/-! Display (43_display): `Offset` covers the framebuffer, `clear` fills it, and what a blit does at every offset. -/

namespace Sys2Proof.Machine

variable {inv : Bool} {fb : Framebuffer} {rows : List Byte} {x0 y0 x y o : Nat} {c : Word}

/-- `Offset` reaches every pixel (R160). -/
theorem exists_displayOffset (inv : Bool) (ho : o < 2048) : ∃ x y, x < 64 ∧ y < 32 ∧ displayOffset inv x y = o := by
  refine ⟨o % 64, displayRow inv (o / 64), ?_⟩
  cases inv <;> simp [displayOffset, displayRow] <;> omega

/-! A run of equal entries at consecutive addresses, as `clear` lists them. -/

theorem sparseGet_map_range' {w : Nat} {d : Nat → BitVec w} {v : BitVec w} {low n k : Nat} (hlow : low ≤ k)
    (hk : k < low + n) : sparseGet d ((List.range' low n).map fun o => (o, v)) k = v := by
  induction n generalizing low with
  | zero => omega
  | succ n ih =>
    rw [List.range'_succ, List.map_cons, sparseGet]
    split
    · rfl
    · exact ih (by omega) (by omega)

theorem sparseWfFrom_map_range' {w : Nat} {d : Nat → BitVec w} {v : BitVec w} {bound low n : Nat}
    (hd : ∀ k, v ≠ d k) (hn : low + n ≤ bound) :
    sparseWfFrom d bound low ((List.range' low n).map fun o => (o, v)) = true := by
  induction n generalizing low with
  | zero => rfl
  | succ n ih =>
    rw [List.range'_succ, List.map_cons, sparseWfFrom_cons]
    exact ⟨le_rfl, by omega, hd low, ih (by omega)⟩

theorem displayClear_of_ne (h : c ≠ Config.clearColor) :
    displayClear c = (List.range' 0 2048).map fun o => (o, c) := by
  rw [displayClear, if_neg h, List.range_eq_range']

theorem displayClear_get (c : Word) (ho : o < 2048) : (displayClear c).get o = c := by
  by_cases hc : c = Config.clearColor
  · rw [hc, displayClear_clearColor, Framebuffer.get_nil]
  · rw [displayClear_of_ne hc]
    exact sparseGet_map_range' (Nat.zero_le o) (by omega)

theorem displayClear_wf (c : Word) : (displayClear c).wf = true := by
  by_cases hc : c = Config.clearColor
  · rw [hc, displayClear_clearColor]
    rfl
  · rw [displayClear_of_ne hc]
    exact sparseWfFrom_map_range' (fun _ => hc) le_rfl

/-- At every offset a blit keeps the pixel or flips it (R167). -/
theorem blitSprite_get_cases (hfb : fb.wf = true) (hrows : rows.length ≤ 32) (o : Nat) :
    (blitSprite inv fb x0 y0 rows).1.get o = fb.get o ∨
      (blitSprite inv fb x0 y0 rows).1.get o = fb.get o ^^^ 0xFFFFFFFF#32 := by
  rcases Nat.lt_or_ge o 2048 with ho | ho
  · obtain ⟨x, y, hx, hy, rfl⟩ := exists_displayOffset inv ho
    by_cases hcov : spriteCovers rows x0 y0 x y
    · exact .inr (blitSprite_covered hfb hrows hcov)
    · exact .inl (blitSprite_uncovered hfb hrows hx hy hcov)
  · exact .inl (blitSprite_outside ho)

/-- The same blit twice restores the framebuffer: the covered pixels are the same, and each is flipped back. -/
theorem blitSprite_blitSprite (hfb : fb.wf = true) (hrows : rows.length ≤ 32) :
    (blitSprite inv (blitSprite inv fb x0 y0 rows).1 x0 y0 rows).1 = fb := by
  have hfb' : (blitSprite inv fb x0 y0 rows).1.wf = true := blitSprite_wf hfb
  refine Framebuffer.ext_of_get (blitSprite_wf hfb') hfb fun o => ?_
  rcases Nat.lt_or_ge o 2048 with ho | ho
  · obtain ⟨x, y, hx, hy, rfl⟩ := exists_displayOffset inv ho
    by_cases hcov : spriteCovers rows x0 y0 x y
    · rw [blitSprite_covered hfb' hrows hcov, blitSprite_covered hfb hrows hcov, BitVec.xor_assoc, BitVec.xor_self,
        BitVec.xor_zero]
    · rw [blitSprite_uncovered hfb' hrows hx hy hcov, blitSprite_uncovered hfb hrows hx hy hcov]
  · rw [blitSprite_outside ho, blitSprite_outside ho]

/-- What a blit shows depends on what was shown, not on the row inversion: two framebuffers with the same logical pixels show
the same ones after the same sprite, with the same flag. -/
theorem blitSprite_congr {inv' : Bool} {fb' : Framebuffer} (hfb : fb.wf = true) (hfb' : fb'.wf = true)
    (hrows : rows.length ≤ 32)
    (heq : ∀ x y, x < 64 → y < 32 → fb'.get (displayOffset inv' x y) = fb.get (displayOffset inv x y)) :
    (∀ x y, x < 64 → y < 32 → (blitSprite inv' fb' x0 y0 rows).1.get (displayOffset inv' x y) =
      (blitSprite inv fb x0 y0 rows).1.get (displayOffset inv x y)) ∧
    (blitSprite inv' fb' x0 y0 rows).2 = (blitSprite inv fb x0 y0 rows).2 := by
  constructor
  · intro x y hx hy
    by_cases hcov : spriteCovers rows x0 y0 x y
    · rw [blitSprite_covered hfb' hrows hcov, blitSprite_covered hfb hrows hcov, heq x y hx hy]
    · rw [blitSprite_uncovered hfb' hrows hx hy hcov, blitSprite_uncovered hfb hrows hx hy hcov, heq x y hx hy]
  · rw [Bool.eq_iff_iff, blitSprite_hit hfb' hrows, blitSprite_hit hfb hrows]
    refine exists_congr fun x => exists_congr fun y => and_congr_right fun hx => and_congr_right fun hy => ?_
    rw [heq x y hx hy]

theorem State.length_loadBytes (s : State) (n : Nat) : (s.loadBytes n).length = n := Memory.length_readBlock

theorem byteOperand_toNat (b : Byte) : (byteOperand b).toNat = b.toNat := BitVec.toNat_setWidth_of_le (by decide)

/-- A sprite has fewer rows than the display, so its pixels are distinct (`rowOps_distinct`). -/
theorem State.length_sprite_le (s : State) (n : Nibble) : (s.loadBytes n.toNat).length ≤ 32 := by
  have := n.isLt
  rw [State.length_loadBytes]
  omega

/-- The sprite's rows, as the obligations write them. -/
theorem State.loadBytes_eq_map (s : State) (n : Nat) :
    s.loadBytes n = (List.range n).map fun k => s.readByte (s.i.toNat + k) := by
  apply List.ext_getElem (by rw [State.length_loadBytes, List.length_map, List.length_range])
  intro k hk _
  rw [List.getElem_map, List.getElem_range]
  exact Memory.getElem_readBlock hk

end Sys2Proof.Machine

namespace Sys2Proof

open Machine

/-- Settles O32. Two equal `xor_pixel` calls restore each pixel, so by canonical form the framebuffer itself. -/
theorem displayUnitLaws : Obligations.DisplayUnitLaws := by
  refine ⟨fun inv o ho => ?_, fun c o ho => displayClear_get c ho, displayClear_wf, fun inv fb x y c hfb hx hy => ?_⟩
  · obtain ⟨x, y, hx, hy, rfl⟩ := exists_displayOffset inv ho
    exact ⟨x, y, hx, hy, rfl, fun x' y' hx' hy' heq => (displayOffset_inj hx' hy' hx hy).mp heq⟩
  · have hfb' : (xorPixel inv fb x y c).1.wf = true := xorPixel_wf hfb hx hy
    refine ⟨Framebuffer.get_set_self hfb, fun o ho => Framebuffer.get_set_other ho,
      Framebuffer.ext_of_get (xorPixel_wf hfb' hx hy) hfb fun o => ?_⟩
    by_cases ho : o = displayOffset inv x y
    · rw [ho, xorPixel_self hfb', xorPixel_self hfb, BitVec.xor_assoc, BitVec.xor_self, BitVec.xor_zero]
    · rw [xorPixel_other ho, xorPixel_other ho]

/-- Settles O33: the cleared framebuffer lists no pixel. -/
theorem clsDarkensDisplay : Obligations.ClsDarkensDisplay :=
  ⟨encodes_of_eq_encode rfl, fun _ => ⟨_, rfl, rfl, fun _ => rfl⟩⟩

/-- Settles O34 by the blit's laws at a covered and at an uncovered pixel; the flag is the hit of the blit. -/
theorem drawSpriteBlits : Obligations.DrawSpriteBlits := by
  intro rx ry n s
  refine ⟨encodes_of_eq_encode (wordXY_eq 0xD rx ry n), fun hfb hrange => ?_, exec_drawSprite_fault rx ry n s⟩
  obtain ⟨fb, hit, hblit, hexec⟩ := exec_drawSprite rx ry n s hrange
  rw [← State.loadBytes_eq_map]
  have hrows := s.length_sprite_le n
  have hhit : hit = true ↔ _ := congrArg Prod.snd hblit ▸ blitSprite_hit hfb hrows
  have hflag : (s.setFlag (collisionFlag hit)).reg 15 = collisionFlag hit := State.reg_setFlag_self s _
  obtain rfl : _ = fb := congrArg Prod.fst hblit
  refine ⟨_, hexec, rfl, fun r hr => State.reg_setFlag_other s (collisionFlag hit) hr, fun x y hx hy =>
    ⟨blitSprite_covered hfb hrows, blitSprite_uncovered hfb hrows hx hy⟩, fun hex => ?_, fun hall => ?_⟩
  · obtain rfl : hit = true := hhit.mpr hex
    exact hflag
  · obtain rfl : hit = false := Bool.eq_false_iff.mpr fun htrue => by
      obtain ⟨x, y, hx, hy, hcov, hlit⟩ := hhit.mp htrue
      exact hlit (hall x y hx hy hcov)
    exact hflag

/-- Settles O35: with neither coordinate in `V[15]` the second draw is the same blit. -/
theorem drawTwiceRestores : Obligations.DrawTwiceRestores := by
  intro rx ry n s t hfb hrx hry ht
  obtain ⟨hrange, fb, hit, hblit, hte⟩ := exec_drawSprite_next ht
  have hreg {r : Reg} (hr : r ≠ 15) : t.reg r = s.reg r := exec_next_reg ht (by simpa [destRegs] using hr)
  have hload : t.loadBytes n.toNat = s.loadBytes n.toNat := by
    rw [hte]
    rfl
  have htinv : t.invertY = s.invertY := by rw [hte]
  have htfb : t.fb = (blitSprite s.invertY s.fb (s.reg rx).toNat (s.reg ry).toNat (s.loadBytes n.toNat)).1 := by
    rw [hte, hblit]
  obtain ⟨fb', hit', hblit', hexec⟩ := exec_drawSprite rx ry n t (by rw [hte]; exact hrange)
  rw [htinv, hreg hrx, hreg hry, hload, htfb] at hblit'
  refine ⟨_, hexec, (congrArg Prod.fst hblit').symm.trans ?_⟩
  exact blitSprite_blitSprite hfb (s.length_sprite_le n)

end Sys2Proof

/-! The row inversion (R160): what a program can observe of it. -/

namespace Sys2Proof.Machine

/-- The state with another row inversion and another framebuffer. -/
def State.withDisplay (s : State) (inv : Bool) (fb : Framebuffer) : State := { s with invertY := inv, fb := fb }

/-- An instruction that does not write the display does the same under any row inversion and any framebuffer, and keeps
both. -/
theorem exec_withDisplay {i : Instr} {s t : State} (inv : Bool) (fb : Framebuffer) (hdisplay : writesDisplay i = false)
    (ht : exec i s = .next t) : exec i (s.withDisplay inv fb) = .next (t.withDisplay inv fb) := by
  cases i with
  | cls | drawSprite => cases hdisplay
  | call addr =>
    obtain ⟨h, rfl⟩ := exec_call_next ht
    exact exec_call addr (s.withDisplay inv fb) h
  | ret =>
    obtain ⟨k, hk, hsp, rfl⟩ := exec_ret_next ht
    exact exec_ret (s.withDisplay inv fb) hk hsp
  | waitForKey rx =>
    rcases exec_waitForKey_cases ht with ⟨hkeys, rfl⟩ | ⟨_, k, hsome, rfl⟩
    · exact exec_waitForKey_none rx (s.withDisplay inv fb) hkeys
    · exact exec_waitForKey_some rx (s.withDisplay inv fb) hsome
  | spriteLoc rx =>
    obtain ⟨h, rfl⟩ := exec_spriteLoc_next ht
    exact exec_spriteLoc rx (s.withDisplay inv fb) h
  | storeBCD | storeRegs =>
    obtain ⟨h, rfl⟩ := storeAtIndex_next ht
    exact (storeAtIndex_eq _ (s.withDisplay inv fb)).trans (if_pos h)
  | loadRegs rx =>
    obtain ⟨h, rfl⟩ := exec_loadRegs_next ht
    exact exec_loadRegs rx (s.withDisplay inv fb) (Nat.le_of_lt_succ h)
  | _ =>
    cases ht
    rfl

/-- DrawSprite under another row inversion, on a framebuffer that shows the same logical pixels. -/
theorem exec_drawSprite_withDisplay {rx ry : Reg} {n : Nibble} {s t : State} (inv : Bool) {fb : Framebuffer}
    (hs : s.fb.wf = true) (hfb : fb.wf = true)
    (hpixels : ∀ x y, x < 64 → y < 32 → (s.withDisplay inv fb).pixelAt x y = s.pixelAt x y)
    (ht : exec (.drawSprite rx ry n) s = .next t) :
    ∃ fb', exec (.drawSprite rx ry n) (s.withDisplay inv fb) = .next (t.withDisplay inv fb') ∧
      ∀ x y, x < 64 → y < 32 → (t.withDisplay inv fb').pixelAt x y = t.pixelAt x y := by
  obtain ⟨hrange, fb₁, hit, hblit, rfl⟩ := exec_drawSprite_next ht
  obtain ⟨fb₂, hit', hblit', hexec⟩ := exec_drawSprite rx ry n (s.withDisplay inv fb) hrange
  have hcongr := blitSprite_congr (inv' := inv) (x0 := (s.reg rx).toNat) (y0 := (s.reg ry).toNat) hs hfb
    (s.length_sprite_le n) hpixels
  change blitSprite inv fb (s.reg rx).toNat (s.reg ry).toNat (s.loadBytes n.toNat) = _ at hblit'
  rw [hblit, hblit'] at hcongr
  obtain ⟨hshown, hflag⟩ := hcongr
  obtain rfl : hit' = hit := hflag
  exact ⟨fb₂, hexec, hshown⟩

end Sys2Proof.Machine

namespace Sys2Proof

open Machine

/-- Settles O36: an instruction that does not write the display carries any display along; Cls shows the same dark pixels, and
DrawSprite flips the same ones. -/
theorem inversionIsInvisible : Obligations.InversionIsInvisible := by
  intro i s u t hs hu hus hpixels ht
  have huw : u = s.withDisplay (!s.invertY) u.fb := hus
  rw [huw] at hpixels
  obtain ⟨-, htinv, -, -, -, -, -, htfb, -⟩ := specialStateFrame i s t ht
  rw [huw, htinv]
  cases hdisplay : writesDisplay i with
  | false =>
    refine ⟨_, exec_withDisplay _ _ hdisplay ht, rfl, fun x y hx hy => ?_⟩
    rw [State.pixelAt, State.pixelAt, htfb hdisplay, htinv]
    exact hpixels x y hx hy
  | true =>
    cases i with
    | cls =>
      cases ht
      exact ⟨_, rfl, rfl, fun _ _ _ _ => rfl⟩
    | drawSprite rx ry n =>
      obtain ⟨fb', hexec, hshown⟩ := exec_drawSprite_withDisplay _ hs hu hpixels ht
      exact ⟨_, hexec, rfl, hshown⟩
    | _ => cases hdisplay

end Sys2Proof

/-! Keypad, timers and random numbers (44_keypad_timer_random). -/

namespace Sys2Proof

open Machine

/-- Settles O38: the key the hypothesis describes is the one the search stops at. -/
theorem waitForKeyTakesOrStalls : Obligations.WaitForKeyTakesOrStalls := by
  refine fun rx s => ⟨encodes_of_eq_encode (wordX_eq 0xF rx 0x0A#8), exec_waitForKey_none rx s, fun k hk hheld hlower => ?_⟩
  have hfirst : firstKeyPressed s.keys = some k := (firstKeyPressed_eq_some_iff s.keys k).mpr ⟨hk, hheld, hlower⟩
  refine ⟨_, exec_waitForKey_some rx s hfirst, rfl, ?_, fun r hr => State.reg_setReg_other s _ hr⟩
  have hreg : (s.setReg rx (BitVec.ofNat 8 k)).reg rx = BitVec.ofNat 8 k := State.reg_setReg_self s rx _
  refine (congrArg BitVec.toNat hreg).trans ?_
  rw [BitVec.toNat_ofNat]
  omega

/-- Settles O39: GetDelay truncates the timer, SetDelay and SetSound zero-extend the register. -/
theorem timerInstructions : Obligations.TimerInstructions := by
  refine fun rx s => ⟨encodes_of_eq_encode (wordX_eq 0xF rx 0x07#8), encodes_of_eq_encode (wordX_eq 0xF rx 0x15#8),
    encodes_of_eq_encode (wordX_eq 0xF rx 0x18#8), ⟨_, rfl, registersOnly_setReg rx _ s, ?_⟩,
    ⟨_, rfl, rfl, byteOperand_toNat _⟩, ⟨_, rfl, rfl, byteOperand_toNat _⟩⟩
  exact (congrArg BitVec.toNat (State.reg_setReg_self s rx _)).trans (BitVec.toNat_setWidth ..)

/-- Settles O42: the register takes the low byte of the output ANDed with `imm`, and the generator its one step. -/
theorem rndAndMasksOutput : Obligations.RndAndMasksOutput := by
  refine fun rx imm s => ⟨encodes_of_eq_encode (wordX_eq 0xC rx imm), _, rfl, rfl, ?_,
    fun r hr => State.reg_setReg_other _ _ hr⟩
  refine (congrArg BitVec.toNat (State.reg_setReg_self _ rx _)).trans ?_
  rw [BitVec.toNat_and, BitVec.toNat_setWidth]

/-- RngReset's increment (R180) by value: the doubled sequence is even, so its OR with 1 is a sum. -/
theorem Machine.rngReset_inc_toNat (seed sequence : Long) :
    (rngReset seed sequence).inc.toNat = 2 * sequence.toNat % 2 ^ 64 + 1 := by
  have heven : sequence.toNat <<< 1 % 2 ^ 64 = (sequence.toNat % 2 ^ 63) <<< 1 := by
    rw [Nat.shiftLeft_eq, Nat.shiftLeft_eq]
    omega
  rw [rngReset_inc, BitVec.toNat_or, BitVec.toNat_shiftLeft, heven, BitVec.toNat_ofNat,
    ← Nat.shiftLeft_add_eq_or_of_lt (by decide), Nat.shiftLeft_eq]
  omega

/-- Settles O41: from state 0 the first discarded step leaves the increment alone, the second advances it with the seed added;
the reference stream is the generator evaluated. -/
theorem generatorResetClosedForm : Obligations.GeneratorResetClosedForm := by
  refine ⟨fun seed sequence => ⟨rngReset_inc_toNat seed sequence, ?_⟩, by decide, by decide, by decide, by decide⟩
  have hsteps : (rngReset seed sequence).state =
      Config.rngMult * (Config.rngMult * 0#64 + (rngReset seed sequence).inc + seed) + (rngReset seed sequence).inc := rfl
  rw [hsteps, BitVec.mul_zero, BitVec.zero_add, BitVec.mul_comm]

end Sys2Proof

/-! The status machine (45_cpu_tick section 2): what each instruction leaves, and that none of them looks at it. -/

namespace Sys2Proof.Machine

variable {i : Instr} {s t : State}

theorem exec_waitForKey_status {rx : Reg} (ht : exec (.waitForKey rx) s = .next t) :
    t.status = if s.keys = 0#16 then .waitingForKey else .running := by
  rcases exec_waitForKey_cases ht with ⟨hkeys, rfl⟩ | ⟨hkeys, _, _, rfl⟩
  · exact (if_pos hkeys).symm
  · exact (if_neg hkeys).symm

theorem exec_next_status (hi : ∀ rx, i ≠ .waitForKey rx) (ht : exec i s = .next t) : t.status = s.status := by
  obtain ⟨-, -, -, -, -, -, -, -, -, -, -, hstatus⟩ := specialStateFrame i s t ht
  exact hstatus hi

/-- No instruction enters Halted (R207). -/
theorem exec_next_not_halted (hrun : s.status ≠ .halted) (ht : exec i s = .next t) : t.status ≠ .halted := by
  by_cases hwait : ∃ rx, i = .waitForKey rx
  · obtain ⟨rx, rfl⟩ := hwait
    rw [exec_waitForKey_status ht]
    split <;> exact nofun
  · rwa [exec_next_status (not_exists.mp hwait) ht]

theorem dividerStep_status (s : State) : (dividerStep s).status = s.status := by rw [dividerStep_rest]

/-- The state with another status. -/
def State.withStatus (s : State) (st : Status) : State := { s with status := st }

/-- No instruction looks at the status: under another one it does the same but for the status it leaves. -/
theorem exec_withStatus (st : Status) (ht : exec i s = .next t) :
    ∃ st', exec i (s.withStatus st) = .next (t.withStatus st') := by
  cases i with
  | call addr =>
    obtain ⟨h, rfl⟩ := exec_call_next ht
    exact ⟨st, exec_call addr (s.withStatus st) h⟩
  | ret =>
    obtain ⟨k, hk, hsp, rfl⟩ := exec_ret_next ht
    exact ⟨st, exec_ret (s.withStatus st) hk hsp⟩
  | waitForKey rx =>
    rcases exec_waitForKey_cases ht with ⟨hkeys, rfl⟩ | ⟨_, k, hsome, rfl⟩
    · exact ⟨_, exec_waitForKey_none rx (s.withStatus st) hkeys⟩
    · exact ⟨_, exec_waitForKey_some rx (s.withStatus st) hsome⟩
  | spriteLoc rx =>
    obtain ⟨h, rfl⟩ := exec_spriteLoc_next ht
    exact ⟨st, exec_spriteLoc rx (s.withStatus st) h⟩
  | storeBCD | storeRegs =>
    obtain ⟨h, rfl⟩ := storeAtIndex_next ht
    exact ⟨st, (storeAtIndex_eq _ (s.withStatus st)).trans (if_pos h)⟩
  | loadRegs rx =>
    obtain ⟨h, rfl⟩ := exec_loadRegs_next ht
    exact ⟨st, exec_loadRegs rx (s.withStatus st) (Nat.le_of_lt_succ h)⟩
  | drawSprite rx ry n =>
    obtain ⟨hrange, _, _, hblit, rfl⟩ := exec_drawSprite_next ht
    obtain ⟨_, _, hblit', hexec⟩ := exec_drawSprite rx ry n (s.withStatus st) hrange
    cases hblit.symm.trans hblit'
    exact ⟨st, hexec⟩
  | _ =>
    cases ht
    exact ⟨st, rfl⟩

theorem dividerStep_withStatus (s : State) (st : Status) :
    dividerStep (s.withStatus st) = (dividerStep s).withStatus st := by
  have hfires : (s.withStatus st).dividerFires = s.dividerFires := rfl
  unfold dividerStep
  rw [hfires]
  cases s.dividerFires <;> rfl

/-- So a step does the same from any two statuses but Halted, but for the status it leaves (R206). -/
theorem step_withStatus {st : Status} (hrun : s.status ≠ .halted) (hst : st ≠ .halted) (ht : step s = .next t) :
    ∃ st', step (s.withStatus st) = .next (t.withStatus st') := by
  rcases step_next_cases ht with ⟨hhalted, _⟩ | ⟨_, i, u, hpc, hdecode, hexec, rfl⟩
  · exact absurd hhalted hrun
  · obtain ⟨st', hexec'⟩ := exec_withStatus st hexec
    have hfetch : fetchInstr (s.withStatus st) = .ok i := fetchInstr_ok.mpr ⟨hpc, hdecode⟩
    have htick : tick (s.withStatus st) = .next (u.withStatus st') := (tick_of_fetchInstr_ok hst hfetch).trans hexec'
    exact ⟨st', step_next.mpr ⟨_, htick, (dividerStep_withStatus u st').symm⟩⟩

end Sys2Proof.Machine

namespace Sys2Proof

open Machine

/-- Settles O46: the status WaitForKey leaves and every other instruction keeps, and that neither a fault nor a next state
depends on whether the Cpu was Running or WaitingForKey. -/
theorem statusMachine : Obligations.StatusMachine := by
  refine ⟨fun rx s t ht => exec_waitForKey_status ht, fun i s t hi ht => exec_next_status hi ht, fun s t ht => ?_,
    fun s hs => ⟨fun f => ?_, fun t ht => ?_⟩⟩
  · rcases step_next_cases ht with ⟨hhalted, rfl⟩ | ⟨hrun, i, u, _, _, hexec, rfl⟩
    · rw [dividerStep_status]
    · rw [dividerStep_status]
      exact iff_of_false (exec_next_not_halted (s := s.countCycle) hrun hexec) hrun
  · have hrun : s.status ≠ .halted := by rw [hs]; exact nofun
    rw [step_fault_iff, step_fault_iff]
    exact and_congr_left' (iff_of_true nofun hrun)
  · have hrun : s.status ≠ .halted := by rw [hs]; exact nofun
    obtain ⟨st', hstep⟩ := step_withStatus (st := .running) hrun nofun ht
    exact ⟨_, hstep, rfl⟩

end Sys2Proof

/-! The divider (60_exceptions section 7): its accumulator by value, and the balance it keeps over a run. -/

namespace Sys2Proof.Machine

variable {i : Instr} {s t : State} {k : Nat}

theorem dividerStep_cpuHz (s : State) : (dividerStep s).cpuHz = s.cpuHz := by rw [dividerStep_rest]

theorem dividerStep_acc_fires (hrate : 60 ≤ s.cpuHz.toNat) (h : s.cpuHz.toNat ≤ s.acc.toNat + 60) :
    (dividerStep s).acc.toNat = s.acc.toNat + 60 - s.cpuHz.toNat := by
  have hacc := s.acc.isLt
  rw [dividerStep_fires h, BitVec.toNat_ofNat]
  omega

theorem dividerStep_acc_quiet (h : s.acc.toNat + 60 < s.cpuHz.toNat) :
    (dividerStep s).acc.toNat = s.acc.toNat + 60 := by
  have hhz := s.cpuHz.isLt
  rw [dividerStep_quiet h, BitVec.toNat_ofNat]
  omega

/-- The divider's balance (R237): 60 come in at each step, and `cpu_hz` goes out when it fires. -/
theorem dividerStep_balance (hrate : 60 ≤ s.cpuHz.toNat) :
    (dividerStep s).acc.toNat + s.cpuHz.toNat * (if s.dividerFires then 1 else 0) = s.acc.toNat + 60 := by
  rcases Nat.lt_or_ge (s.acc.toNat + 60) s.cpuHz.toNat with h | h
  · rw [if_neg (mt s.dividerFires_iff.mp (Nat.not_le.mpr h)), dividerStep_acc_quiet h]
    rfl
  · rw [if_pos (s.dividerFires_iff.mpr h), dividerStep_acc_fires hrate h]
    omega

theorem dividerStep_divided (h : s.Divided) : (dividerStep s).Divided := by
  obtain ⟨hrate, hacc⟩ := h
  rw [State.Divided, dividerStep_cpuHz]
  refine ⟨hrate, ?_⟩
  rcases Nat.lt_or_ge (s.acc.toNat + 60) s.cpuHz.toNat with h | h
  · rwa [dividerStep_acc_quiet h]
  · rw [dividerStep_acc_fires hrate h]
    omega

/-- A Tick leaves the rate and the accumulator to the divider step. -/
theorem tick_next_rate (ht : tick s = .next t) : t.cpuHz = s.cpuHz ∧ t.acc = s.acc := by
  rcases tick_cases s with ⟨_, h⟩ | ⟨_, _, _, h⟩ | ⟨_, i, _, h⟩
  · rw [h] at ht
    cases ht
    exact ⟨rfl, rfl⟩
  · rw [h] at ht
    cases ht
  · obtain ⟨-, -, -, hhz, hacc, -⟩ := specialStateFrame i s.countCycle t (h.symm.trans ht)
    exact ⟨hhz, hacc⟩

theorem tick_next_divided (h : s.Divided) (ht : tick s = .next t) : t.Divided := by
  obtain ⟨hhz, hacc⟩ := tick_next_rate ht
  rwa [State.Divided, hhz, hacc]

/-- Over a run the balances add up: 60 for each step, `cpu_hz` for each tick fired. -/
theorem runs_balance (hs : s.Divided) (hrun : Runs k s t) :
    t.cpuHz = s.cpuHz ∧ t.Divided ∧ t.acc.toNat + s.cpuHz.toNat * ticksFired k s = s.acc.toNat + 60 * k := by
  induction k generalizing s with
  | zero =>
    cases hrun
    exact ⟨rfl, hs, rfl⟩
  | succ k ih =>
    obtain ⟨u, hstep, hrest⟩ := hrun
    obtain ⟨w, htick, rfl⟩ := step_next.mp hstep
    obtain ⟨hhz, hacc⟩ := tick_next_rate htick
    have hw : w.Divided := tick_next_divided hs htick
    have hbalance := dividerStep_balance hw.1
    obtain ⟨hthz, ht, hsum⟩ := ih (dividerStep_divided hw) hrest
    rw [dividerStep_cpuHz, hhz] at hthz hsum
    rw [hhz, hacc] at hbalance
    refine ⟨hthz, ht, ?_⟩
    rw [ticksFired_succ htick, Nat.mul_add]
    omega

/-- One timer over a divider step: it loses one when the divider fires. -/
theorem dividerStep_dt (s : State) : (dividerStep s).dt.toNat = s.dt.toNat - if s.dividerFires then 1 else 0 := by
  rw [dividerStep_eq]
  split
  · exact decrementTimer_toNat s.dt
  · rfl

theorem dividerStep_st (s : State) : (dividerStep s).st.toNat = s.st.toNat - if s.dividerFires then 1 else 0 := by
  rw [dividerStep_eq]
  split
  · exact decrementTimer_toNat s.st
  · rfl

/-- In Halted the timers lose one at each tick fired, and nothing else changes them (D27). -/
theorem runs_halted_timers (hs : s.status = .halted) (hrun : Runs k s t) :
    t.dt.toNat = s.dt.toNat - ticksFired k s ∧ t.st.toNat = s.st.toNat - ticksFired k s := by
  induction k generalizing s with
  | zero =>
    cases hrun
    exact ⟨rfl, rfl⟩
  | succ k ih =>
    obtain ⟨u, hstep, hrest⟩ := hrun
    obtain ⟨w, htick, rfl⟩ := step_next.mp hstep
    cases htick.symm.trans (tick_of_halted hs)
    obtain ⟨hdt, hst⟩ := ih ((dividerStep_status s).trans hs) hrest
    rw [hdt, hst, dividerStep_dt, dividerStep_st, ticksFired_succ htick, Nat.sub_sub, Nat.sub_sub]
    exact ⟨rfl, rfl⟩

end Sys2Proof.Machine

namespace Sys2Proof

open Machine

/-- Settles O48: the two outcomes of the single test. -/
theorem dividerStepExact : Obligations.DividerStepExact := by
  refine fun s hrate => ⟨fun h => ⟨?_, dividerStep_acc_fires hrate h⟩, fun h => ⟨?_, dividerStep_acc_quiet h⟩⟩
  · rw [dividerStep_fires h]
  · rw [dividerStep_quiet h]

/-- Settles O59: a step is a Tick, which leaves both to the divider, and the divider step. -/
theorem stepKeepsDivided : Obligations.StepKeepsDivided := by
  intro s t hs ht
  obtain ⟨u, htick, rfl⟩ := step_next.mp ht
  exact ⟨dividerStep_divided (tick_next_divided hs htick),
    (dividerStep_cpuHz u).trans (tick_next_rate htick).1⟩

/-- Settles O49: from `acc = 0` the balance of the run divides `60 k` by the rate, with the accumulator as remainder. -/
theorem dividerRateLaw : Obligations.DividerRateLaw := by
  refine ⟨dividerStep_eq, fun k s t hrate hacc hrun => ?_⟩
  have hzero : s.acc.toNat = 0 := by rw [hacc]; rfl
  obtain ⟨hhz, ⟨_, hlt⟩, hsum⟩ := runs_balance ⟨hrate, by omega⟩ hrun
  rw [hhz] at hlt
  rw [hzero, Nat.zero_add] at hsum
  obtain ⟨hdiv, hmod⟩ := (Nat.div_mod_unique (by omega)).mpr ⟨hsum, hlt⟩
  refine ⟨hdiv.symm, hhz, hmod.symm, fun hhalted => ?_⟩
  rw [hdiv]
  exact runs_halted_timers hhalted hrun

end Sys2Proof

/-! The invariants (10_state section 7): what an instruction may put into each part of the state they speak of. -/

namespace Sys2Proof.Machine

variable {i : Instr} {s t : State}

theorem exec_next_mem_wf (hmem : s.mem.wf = true) (ht : exec i s = .next t) : t.mem.wf = true := by
  rcases exec_next_stores ht with ⟨bytes, _, hstore⟩ | ⟨_, hkept⟩
  · obtain ⟨hrange, rfl⟩ := storeAtIndex_next hstore
    exact Memory.writeBlock_wf hmem hrange
  · rwa [hkept]

/-- The framebuffer after an instruction: kept, cleared, or with a sprite drawn on it (R32). -/
theorem exec_next_fb (ht : exec i s = .next t) :
    t.fb = s.fb ∨ t.fb = [] ∨
      ∃ x y rows, rows.length ≤ 32 ∧ t.fb = (blitSprite s.invertY s.fb x y rows).1 := by
  cases hdisplay : writesDisplay i with
  | false =>
    obtain ⟨-, -, -, -, -, -, -, hfb, -⟩ := specialStateFrame i s t ht
    exact .inl (hfb hdisplay)
  | true =>
    cases i with
    | cls =>
      cases ht
      exact .inr (.inl rfl)
    | drawSprite rx ry n =>
      obtain ⟨_, _, _, hblit, rfl⟩ := exec_drawSprite_next ht
      exact .inr (.inr ⟨_, _, _, s.length_sprite_le n, (congrArg Prod.fst hblit).symm⟩)
    | _ => cases hdisplay

theorem exec_next_fb_wf (hfb : s.fb.wf = true) (ht : exec i s = .next t) : t.fb.wf = true := by
  rcases exec_next_fb ht with h | h | ⟨x, y, rows, _, h⟩ <;> rw [h]
  · exact hfb
  · rfl
  · exact blitSprite_wf hfb

/-- A pixel stays dark or lit: kept, cleared or flipped (R168). -/
theorem exec_next_pixel (hfb : s.fb.wf = true) (hpixel : ∀ o, s.fb.get o = 0x00000000#32 ∨ s.fb.get o = 0xFFFFFFFF#32)
    (ht : exec i s = .next t) (o : Nat) : t.fb.get o = 0x00000000#32 ∨ t.fb.get o = 0xFFFFFFFF#32 := by
  rcases exec_next_fb ht with h | h | ⟨x, y, rows, hrows, h⟩ <;> rw [h]
  · exact hpixel o
  · exact .inl rfl
  · rcases blitSprite_get_cases (inv := s.invertY) (x0 := x) (y0 := y) hfb hrows o with hkept | hflip
    · rw [hkept]
      exact hpixel o
    · rw [hflip]
      rcases hpixel o with hdark | hlit
      · exact .inr (by rw [hdark]; rfl)
      · exact .inl (by rw [hlit]; rfl)

/-- The delay timer is kept or takes a register (R36). -/
theorem exec_next_dt_le (hdt : s.dt.toNat ≤ 255) (ht : exec i s = .next t) : t.dt.toNat ≤ 255 := by
  by_cases hset : ∃ rx, i = .setDelay rx
  · obtain ⟨rx, rfl⟩ := hset
    cases ht
    exact (byteOperand_toNat (s.reg rx)).trans_le (Nat.le_of_lt_succ (BitVec.isLt _))
  · obtain ⟨-, -, -, -, -, -, -, -, -, hkept, -⟩ := specialStateFrame i s t ht
    rwa [hkept (not_exists.mp hset)]

/-- The sound timer is kept or takes a register (R36). -/
theorem exec_next_st_le (hst : s.st.toNat ≤ 255) (ht : exec i s = .next t) : t.st.toNat ≤ 255 := by
  by_cases hset : ∃ rx, i = .setSound rx
  · obtain ⟨rx, rfl⟩ := hset
    cases ht
    exact (byteOperand_toNat (s.reg rx)).trans_le (Nat.le_of_lt_succ (BitVec.isLt _))
  · obtain ⟨-, -, -, -, -, -, -, -, -, -, hkept, -⟩ := specialStateFrame i s t ht
    rwa [hkept (not_exists.mp hset)]

/-- The generator's step keeps its increment (R181), and nothing else touches it. -/
theorem exec_next_inc (ht : exec i s = .next t) : t.rng.inc = s.rng.inc := by
  by_cases hrnd : ∃ rx imm, i = .rndAnd rx imm
  · obtain ⟨rx, imm, rfl⟩ := hrnd
    cases ht
    rfl
  · obtain ⟨-, -, -, -, -, -, -, -, hkept, -⟩ := specialStateFrame i s t ht
    rw [hkept fun rx imm hi => hrnd ⟨rx, imm, hi⟩]

/-- The stack is kept, or Call has pushed the address behind itself (R112, R113). -/
theorem exec_next_stack (ht : exec i s = .next t) :
    t.stack = s.stack ∨ ∃ h, t.stack = s.stack.set s.sp.val (s.pc + 2#16) h := by
  cases hstack : usesStack i with
  | false =>
    obtain ⟨-, -, -, -, -, -, hkept, -⟩ := specialStateFrame i s t ht
    exact .inl (hkept hstack).1
  | true =>
    cases i with
    | call =>
      obtain ⟨h, rfl⟩ := exec_call_next ht
      exact .inr ⟨h, rfl⟩
    | ret =>
      obtain ⟨_, _, _, rfl⟩ := exec_ret_next ht
      exact .inl rfl
    | _ => cases hstack

/-- An address up to 4 behind a fetched instruction, without wrapping. -/
theorem pc_add_toNat {pc : Half} {d : Nat} (hpc : pc.toNat < 4095) (hd : d ≤ 4) :
    (pc + BitVec.ofNat 16 d).toNat = pc.toNat + d := by
  rw [BitVec.toNat_add, BitVec.toNat_ofNat]
  omega

theorem exec_next_stack_le (hpc : s.pc.toNat < 4095) (hstack : ∀ k : Fin 16, (s.stack[k.val]).toNat ≤ 4096)
    (ht : exec i s = .next t) (k : Fin 16) : (t.stack[k.val]).toNat ≤ 4096 := by
  rcases exec_next_stack ht with h | ⟨hsp, h⟩ <;> simp only [h]
  · exact hstack k
  · rw [Vector.getElem_set]
    split
    · rw [pc_add_toNat hpc (by decide)]
      omega
    · exact hstack k

/-- The bound on `pc` (R42): the largest is JumpV0's, 255 + 4095, and a return address is bounded by the stack's bound. -/
theorem nextPcOf_lt (hpc : s.pc.toNat < 4095) (hstack : ∀ k : Fin 16, (s.stack[k.val]).toNat ≤ 4096) (i : Instr) :
    (nextPcOf i s).toNat < 4351 := by
  have hnext : (s.pc + 2#16).toNat < 4351 := by
    rw [pc_add_toNat hpc (by decide)]
    omega
  have hskip (c : Bool) : (if c = true then s.pc + 4#16 else s.pc + 2#16).toNat < 4351 := by
    split
    · rw [pc_add_toNat hpc (by decide)]
      omega
    · exact hnext
  cases i with
  | jump addr | call addr =>
    have haddr := addr.isLt
    rw [nextPcOf, BitVec.toNat_ofNat]
    omega
  | jumpV0 addr =>
    have haddr := addr.isLt
    have hreg := (s.reg 0).isLt
    rw [nextPcOf, BitVec.toNat_ofNat]
    omega
  | ret =>
    have hlt : s.sp.val - 1 < 16 := by omega
    have hentry : (s.stack[s.sp.val - 1]).toNat ≤ 4096 := hstack ⟨s.sp.val - 1, hlt⟩
    rw [nextPcOf, List.getD_eq_getElem _ _ (by simpa using hlt), Vector.getElem_toList]
    omega
  | skipEqI | skipNeqI | skipEq | skipNeq | skipKeyPressed | skipKeyNPressed => exact hskip _
  | waitForKey =>
    rw [nextPcOf]
    split
    · omega
    · exact hnext
  | _ => exact hnext

/-- Every instruction keeps the invariants from a `pc` it can be fetched at. -/
theorem exec_keeps_inv (hs : s.Inv) (hpc : s.pc.toNat < 4095) (ht : exec i s = .next t) : t.Inv where
  mem_wf := exec_next_mem_wf hs.mem_wf ht
  fb_wf := exec_next_fb_wf hs.fb_wf ht
  pixel := exec_next_pixel hs.fb_wf hs.pixel ht
  dt_le := exec_next_dt_le hs.dt_le ht
  st_le := exec_next_st_le hs.st_le ht
  inc_odd := (exec_next_inc ht).symm ▸ hs.inc_odd
  rate := by
    obtain ⟨-, -, -, hrate, -⟩ := specialStateFrame i s t ht
    exact hrate ▸ hs.rate
  pc_lt := (exec_next_pc ht).symm ▸ nextPcOf_lt hpc hs.stack_le i
  stack_le := exec_next_stack_le hpc hs.stack_le ht

/-- The invariants do not speak of `cycles`. -/
theorem State.Inv.countCycle (hs : s.Inv) : s.countCycle.Inv := { hs with }

/-- The divider only lowers the timers (R236, R237). -/
theorem dividerStep_keeps_inv (hs : s.Inv) : (dividerStep s).Inv := by
  have hdt : (dividerStep s).dt.toNat ≤ 255 := (dividerStep_dt s).trans_le ((Nat.sub_le _ _).trans hs.dt_le)
  have hst : (dividerStep s).st.toNat ≤ 255 := (dividerStep_st s).trans_le ((Nat.sub_le _ _).trans hs.st_le)
  rw [dividerStep_rest]
  exact { hs with dt_le := hdt, st_le := hst }

theorem step_keeps_inv (hs : s.Inv) (ht : step s = .next t) : t.Inv := by
  rcases step_next_cases ht with ⟨_, rfl⟩ | ⟨_, i, u, hpc, _, hexec, rfl⟩
  · exact dividerStep_keeps_inv hs
  · exact dividerStep_keeps_inv (exec_keeps_inv hs.countCycle hpc hexec)

end Sys2Proof.Machine

namespace Sys2Proof

open Machine

/-- Settles O58: the fetched instruction and then the divider step each keep the invariants. -/
theorem stepKeepsInvariant : Obligations.StepKeepsInvariant := fun _ _ hs ht => step_keeps_inv hs ht

end Sys2Proof

/-! Construction and the host (60_exceptions section 8, 70_reset_and_hazards): what `new` gives, and that every
host operation keeps the invariants. -/

namespace Sys2Proof.Machine

variable {s : State}

/-- What `new` gives for an accepted rate meets the invariants (R40, R260). -/
theorem State.new_inv {p : Params} (hrate : 60 ≤ p.cpuHz.toNat) : (State.new p).Inv where
  mem_wf := State.new_mem_wf p
  fb_wf := rfl
  pixel _ := .inl rfl
  dt_le := Nat.zero_le _
  st_le := Nat.zero_le _
  inc_odd := by
    change (rngReset p.rngSeed p.rngSeq).inc.getLsbD 0 = true
    rw [BitVec.getLsbD, Nat.testBit_zero, rngReset_inc_toNat]
    exact decide_eq_true (by omega)
  rate := hrate
  pc_lt := show Config.resetPc.toNat < 4351 by decide
  stack_le k := by
    rw [State.new, Vector.getElem_replicate]
    exact Nat.zero_le _

/-- A longer image is refused, and nothing changes (R262). -/
theorem loadRom_of_length_gt {bytes : List Byte} (h : 3584 < bytes.length) (s : State) :
    loadRom bytes s = (s, .romTooLarge) :=
  if_neg fun hfits => Nat.not_le.mpr h (of_decide_eq_true hfits)

theorem loadRom_keeps_inv (hs : s.Inv) (bytes : List Byte) : (loadRom bytes s).1.Inv := by
  rcases Nat.lt_or_ge 3584 bytes.length with h | h
  · rwa [loadRom_of_length_gt h]
  · rw [loadRom_of_length_le h]
    exact { hs with mem_wf := Memory.writeBlock_wf hs.mem_wf (by omega) }

/-- The loop of `advance_ms` keeps the invariants, at a fault too, where only `cycles` differs (R221, R238). -/
theorem advanceLoop_keeps_inv (hs : s.Inv) (n : Nat) : (advanceLoop n s).1.Inv := by
  induction n generalizing s with
  | zero => exact hs
  | succ n ih =>
    rw [advanceLoop]
    cases hstep : step s with
    | next t => exact ih (step_keeps_inv hs hstep)
    | fault f => exact hs.countCycle
    | refused r => exact hs

theorem setCpuHz_keeps_inv (hs : s.Inv) (hz : Word) : (setCpuHz hz s).1.Inv := by
  rw [setCpuHz]
  split <;> rename_i h
  · exact hs
  · exact { hs with rate := Nat.le_of_not_lt h }

theorem applyHostOp_keeps_inv (hs : s.Inv) (op : HostOp) : (applyHostOp op s).1.Inv := by
  cases op with
  | loadRom bytes => exact loadRom_keeps_inv hs bytes
  | advanceMs elapsed => exact advanceLoop_keeps_inv hs _
  | setCpuHz hz => exact setCpuHz_keeps_inv hs hz
  | keyDown | keyUp | halt | resume => exact { hs with }
  | framebuffer | framebufferDims | readSound | readDelay => exact hs

/-- Past the 80 bytes of the font, reset memory is 0 (R40). -/
theorem resetByte_eq_zero {a : Nat} (ha : 80 ≤ a) : resetByte a = 0#8 := List.getD_eq_default _ _ ha

theorem readByte_new_font (p : Params) (a : Fin 80) : (State.new p).readByte a.val = p.font[a.val] := by
  have hread := Memory.read_writeBlock_self (m := []) (a := 0) (bytes := p.font.toList) (k := a.val) rfl
    (by simp) (by simp)
  rw [Nat.zero_add] at hread
  exact hread.trans (Vector.getElem_toList _)

theorem readByte_new_zero (p : Params) {a : Nat} (ha : 80 ≤ a) : (State.new p).readByte a = 0#8 := by
  have hread := Memory.read_writeBlock_other (m := []) (a := 0) (b := a) (bytes := p.font.toList) (.inr (by simpa using ha))
  exact hread.trans (resetByte_eq_zero ha)

/-- Without a ROM the bytes at the reset `pc` are 0, and the word 0 is no instruction. -/
theorem step_new (p : Params) : step (State.new p) = .fault .invalidInstruction := by
  have hpc : (State.new p).pc.toNat = 0x200 := rfl
  have hhigh : (State.new p).mem.read 0x200 = 0#8 := readByte_new_zero p (by decide)
  have hlow : (State.new p).mem.read (0x200 + 1) = 0#8 := readByte_new_zero p (by decide)
  have hdecode : decode ((State.new p).mem.readWord 0x200) = none := by
    rw [Memory.readWord_eq, hhigh, hlow]
    decide
  exact step_of_fetchInstr_error nofun (fetchInstr_error.mpr (.inr ⟨hpc.trans_lt (by decide), hdecode, rfl⟩))

end Sys2Proof.Machine

namespace Sys2Proof

open Machine

/-- Settles O55: the record of `new` field by field, the font in its block, and the first fetch from bytes that are 0. -/
theorem constructionValues : Obligations.ConstructionValues := by
  intro p
  refine ⟨fun h => ?_, fun h => ?_, rfl, rfl, rfl, rfl, rfl, rfl, rfl, rfl, rfl, rfl, rfl, rfl, fun r => ?_, fun k => ?_,
    fun _ => rfl, readByte_new_font p, fun a ha => readByte_new_zero p ha, step_new p⟩
  · exact if_neg fun hp => Nat.not_le.mpr h (of_decide_eq_true hp)
  · exact if_pos (decide_eq_true h)
  · exact Vector.getElem_replicate _
  · exact Vector.getElem_replicate _

/-- Settles O57: the rate of `Config.params` is 500. -/
theorem resetMeetsInvariant : Obligations.ResetMeetsInvariant := by
  have hrate : 60 ≤ Config.params.cpuHz.toNat := by decide
  exact ⟨State.new_inv hrate, hrate, by decide⟩

/-- Settles O60, by induction on the host's operations. -/
theorem reachableStatesKeepInvariant : Obligations.ReachableStatesKeepInvariant := by
  intro s hreach
  induction hreach with
  | new p hp => exact State.new_inv (of_decide_eq_true hp)
  | host op s _ hs => exact applyHostOp_keeps_inv hs op

/-- Settles O51: an image that fits is one block at 0x200. -/
theorem loadRomCopies : Obligations.LoadRomCopies := by
  refine fun bytes s => ⟨fun hfits hmem => ?_, fun hlong => loadRom_of_length_gt hlong s⟩
  rw [applyHostOp]
  refine ⟨?_, ?_, fun k hk => ?_, fun a ha => ?_⟩
  · rw [loadRom_of_length_le hfits]
  · rw [loadRom_of_length_le hfits]
  · rw [List.getD_eq_getElem _ _ hk]
    exact read_loadRom hfits hmem hk
  · rw [loadRom_of_length_le hfits]
    exact Memory.read_writeBlock_other ha

/-- Settles O52: a shifted 1 is the one bit `k`, and setting or clearing it again changes no bit. -/
theorem keyOperations : Obligations.KeyOperations := by
  intro k s
  have hbit (j : Nat) : (1#16 <<< k.toNat).getLsbD j = decide (j = k.toNat) := by
    rw [← BitVec.twoPow_eq, BitVec.getLsbD_twoPow, decide_eq_true (show k.toNat < 16 from k.isLt), Bool.true_and]
    exact decide_eq_decide.mpr eq_comm
  refine ⟨rfl, rfl, fun j hj => ?_, fun j hj => ?_, ?_, ?_⟩
  · rw [keyDown, BitVec.getLsbD_or, hbit, Bool.or_comm]
  · rw [keyUp, BitVec.getLsbD_and, BitVec.getLsbD_not, hbit, decide_eq_true hj, Bool.true_and, Bool.and_comm]
  · rw [keyDown, keyDown, BitVec.or_assoc, BitVec.or_self]
  · rw [keyUp, keyUp, BitVec.and_assoc, BitVec.and_self]

/-- Settles O53: the two sides of the test on the rate. -/
theorem setCpuHzAcceptsFrom60 : Obligations.SetCpuHzAcceptsFrom60 := fun _ _ =>
  ⟨fun h => if_pos h, fun h => if_neg (Nat.not_lt.mpr h)⟩

/-- Settles O54: the view lists the framebuffer by offset. -/
theorem hostReadsChangeNothing : Obligations.HostReadsChangeNothing := by
  intro s
  refine ⟨rfl, rfl, rfl, ?_, _, rfl, ?_, fun o ho => ?_⟩
  · rw [soundOn, decide_eq_true_eq, ne_eq, ne_eq, ← BitVec.toNat_inj, BitVec.toNat_ofNat]
  · rw [framebufferView, List.length_map, List.length_range]
  · rw [framebufferView, List.getD_eq_getElem _ _ (by simpa using ho), List.getElem_map, List.getElem_range]

end Sys2Proof
